-- ==== Sys2Proof/Word.lean ====
section
/-! DEFINITION. The word types of the core: octets, 16-bit registers, 48-bit command words, 16-bit LUT words
(spec/00_scope.md R8). Every integer of the core is unsigned. -/

namespace Sys2Proof

/-- An octet (R8, R9). -/
abbrev Byte := BitVec 8

/-- A 16-bit register value, `u16` (R8). -/
abbrev Word16 := BitVec 16

/-- A command word, `u48` (spec/30_encoding.md R70). -/
abbrev CmdWord := BitVec 48

/-- A LUT entry word `LUTW` (spec/30_encoding.md R80). -/
abbrev LutWord := BitVec 16

end Sys2Proof
end

