-- ==== Sys2Proof/Config.lean ====
section
/-! DEFINITION. What an implementation fixes: the catalog and the input buffer's size (spec/00_scope.md R6, R7;
spec/70_reset_and_hazards.md R214), and the one open value, the catalog itself. -/

namespace Sys2Proof

/-- One catalog entry: its `LUTW` word, and the host's metadata `NAME[k]` and `UNIT[k]` beside it
(spec/30_encoding.md R80). -/
structure CatalogEntry where
  word : LutWord
  name : String
  unit : String
  deriving DecidableEq, Repr, Inhabited

/-- The configuration, loaded once before the first reset and never changed after (R214). -/
structure Config where
  /-- `CATALOG`: the ordered entries, `N_FIELDS` of them (R6, R7). -/
  catalog : List CatalogEntry
  /-- `IBUF_SIZE` (R6). -/
  ibufSize : Nat
  deriving DecidableEq, Repr

/-- `LUT`: the entry words in catalog order (spec/10_state.md R35). -/
def Config.lut (c : Config) : List LutWord := c.catalog.map (·.word)

/-- `N_FIELDS`, the length of `CATALOG` (R6). -/
def Config.nFields (c : Config) : Nat := c.catalog.length

/-- The shipped catalog. The spec does not give it (spec/91_not_in_source.md N1), so nothing constrains it:
DESIGN CHOICE, safe, log entry 3. -/
opaque Config.openCatalog : List CatalogEntry

/-- The spec's value of `IBUF_SIZE` (R6; log entry 5). -/
def Config.specIbufSize : Nat := 512

end Sys2Proof
end

