-- ==== Sys2Proof/Syntax.lean ====
section
/-! DEFINITION. The five operations of the core, one constructor per row of spec/opcode_table.json
(spec/30_encoding.md R71). -/

namespace Sys2Proof

/-- An operation with its operands, as the command word's fields give them (R70, R71). -/
inductive Instr where
  /-- `CRC_INIT` (spec/40_crc.md R103). -/
  | crcInit
  /-- `CRC_FEED b`, `b` = `P0` (R104). -/
  | crcFeed (b : Byte)
  /-- `CRC_COMPUTE n`, `n` = `LEN` (R105). -/
  | crcCompute (n : Word16)
  /-- `BUILD_QUERY addr, cmd, sub, n`: `P0`, `P1`, `P2`, `LEN` (spec/41_frame_packer.md R121). -/
  | buildQuery (addr cmd sub : Byte) (n : Word16)
  /-- `DECODE n`, `n` = `LEN`, the response length (spec/42_decoder.md R140). -/
  | decode (n : Word16)
  deriving DecidableEq, Repr

end Sys2Proof
end

