-- ==== Sys2Proof/Decode.lean ====
section
/-! DEFINITION. Encodings (spec/30_encoding.md): the command word, its decoder and encoder, the pseudo-operations,
and the LUT entry word. -/

namespace Sys2Proof

/-! ## Command word (R70 to R74) -/

/-- `OPC` = `w[7:0]` (R70). -/
def cmdOpc (w : CmdWord) : Byte := w.extractLsb' 0 8
/-- `P0` = `w[15:8]` (R70). -/
def cmdP0 (w : CmdWord) : Byte := w.extractLsb' 8 8
/-- `P1` = `w[23:16]` (R70). -/
def cmdP1 (w : CmdWord) : Byte := w.extractLsb' 16 8
/-- `P2` = `w[31:24]` (R70). -/
def cmdP2 (w : CmdWord) : Byte := w.extractLsb' 24 8
/-- `LEN` = `w[47:32]` (R70). -/
def cmdLen (w : CmdWord) : Word16 := w.extractLsb' 32 16

/-- Why a command word is illegal: case (a) or case (b) of R73. -/
inductive DecodeError where
  /-- (a) `OPC` is none of the five codes. -/
  | unknownOpcode (opc : Byte)
  /-- (b) a field marked "must be 0" is not 0. -/
  | nonzeroField (opc : Byte)
  deriving DecidableEq, Repr

/-- `decode_cmd` (R74), total: one of the five operations, or illegal by name (R73). -/
def decodeCmd (w : CmdWord) : Except DecodeError Instr :=
  if cmdOpc w = 0x01#8 then
    if cmdP0 w = 0 ∧ cmdP1 w = 0 ∧ cmdP2 w = 0 ∧ cmdLen w = 0 then .ok .crcInit
    else .error (.nonzeroField (cmdOpc w))
  else if cmdOpc w = 0x02#8 then
    if cmdP1 w = 0 ∧ cmdP2 w = 0 ∧ cmdLen w = 0 then .ok (.crcFeed (cmdP0 w))
    else .error (.nonzeroField (cmdOpc w))
  else if cmdOpc w = 0x03#8 then
    if cmdP0 w = 0 ∧ cmdP1 w = 0 ∧ cmdP2 w = 0 then .ok (.crcCompute (cmdLen w))
    else .error (.nonzeroField (cmdOpc w))
  else if cmdOpc w = 0x10#8 then .ok (.buildQuery (cmdP0 w) (cmdP1 w) (cmdP2 w) (cmdLen w))
  else if cmdOpc w = 0x20#8 then
    if cmdP0 w = 0 ∧ cmdP1 w = 0 ∧ cmdP2 w = 0 then .ok (.decode (cmdLen w))
    else .error (.nonzeroField (cmdOpc w))
  else .error (.unknownOpcode (cmdOpc w))

/-- The word with the given fields (R70), `LEN` at the top and `OPC` at the bottom. -/
def packCmd (opc p0 p1 p2 : Byte) (len : Word16) : CmdWord := len ++ p2 ++ p1 ++ p0 ++ opc

/-- The operation code of an operation (R71). -/
def opcodeOf : Instr → Byte
  | .crcInit => 0x01
  | .crcFeed _ => 0x02
  | .crcCompute _ => 0x03
  | .buildQuery _ _ _ _ => 0x10
  | .decode _ => 0x20

/-- The command word of an operation, its "must be 0" fields zero (R71). -/
def encodeCmd : Instr → CmdWord
  | .crcInit => packCmd (opcodeOf .crcInit) 0 0 0 0
  | .crcFeed b => packCmd (opcodeOf (.crcFeed b)) b 0 0 0
  | .crcCompute n => packCmd (opcodeOf (.crcCompute n)) 0 0 0 n
  | .buildQuery addr cmd sub n => packCmd (opcodeOf (.buildQuery addr cmd sub n)) addr cmd sub n
  | .decode n => packCmd (opcodeOf (.decode n)) 0 0 0 n

/-- The operation read from a table row's bits: `w` cut to `nbits` is the command word, and a number of more than
48 bits is no command word (log entry 15). -/
def decodeTableWord (nbits w : Nat) : Option Instr :=
  if w % 2 ^ nbits < 2 ^ 48 then (decodeCmd (BitVec.ofNat 48 (w % 2 ^ nbits))).toOption else none

/-! ## Pseudo-operations (R76) -/

/-- `QUERY_STATUS addr` expands to `BUILD_QUERY addr, 0x60, 0x01, 0` (R76). -/
def queryStatus (addr : Byte) : Instr := .buildQuery addr 0x60 0x01 0

/-- `CRC_SEQ b0, ..., bk` expands to `CRC_INIT` and one `CRC_FEED` for each byte (R76). -/
def crcSeq (bs : List Byte) : List Instr := .crcInit :: bs.map .crcFeed

/-! ## LUT entry word (R80 to R85) -/

/-- `KIND` = bits [2:0] (R80). -/
def lutKind (e : LutWord) : BitVec 3 := e.extractLsb' 0 3
/-- `SCALE` = bits [4:3] (R80). -/
def lutScale (e : LutWord) : BitVec 2 := e.extractLsb' 3 2
/-- `WIDTH` = bits [9:5], a number of response bytes (R80, R83). -/
def lutWidth (e : LutWord) : Nat := (e.extractLsb' 5 5).toNat
/-- `CATEGORY` = bits [12:10] (R80). -/
def lutCategory (e : LutWord) : BitVec 3 := e.extractLsb' 10 3
/-- `PRIMARY` = bit [13] (R80). -/
def lutPrimary (e : LutWord) : Bool := e.getLsbD 13
/-- The reserved bits [15:14] (R80). -/
def lutReserved (e : LutWord) : BitVec 2 := e.extractLsb' 14 2

/-- The decoded types (R81). -/
inductive FieldKind where
  | uint8 | uint16be | uint32be | fixed16 | fixed32 | text
  deriving DecidableEq, Repr

/-- The type a `KIND` code names; 6 and 7 are reserved (R81). -/
def fieldKind (k : BitVec 3) : Option FieldKind :=
  if k = 0 then some .uint8
  else if k = 1 then some .uint16be
  else if k = 2 then some .uint32be
  else if k = 3 then some .fixed16
  else if k = 4 then some .fixed32
  else if k = 5 then some .text
  else none

/-- `div(SCALE)`: 1, 10, 100 or 1000 (R82). -/
def scaleDiv (sc : BitVec 2) : Nat :=
  if sc = 0 then 1 else if sc = 1 then 10 else if sc = 2 then 100 else 1000

/-- The categories in the source's order (R84). -/
inductive Category where
  | identity | softwareRevision | electricalMeasurement | energy | temperature | resistance | statusFlag
  deriving DecidableEq, Repr

/-- The category a `CATEGORY` code names; 7 is reserved (R84). -/
def category (c : BitVec 3) : Option Category :=
  if c = 0 then some .identity
  else if c = 1 then some .softwareRevision
  else if c = 2 then some .electricalMeasurement
  else if c = 3 then some .energy
  else if c = 4 then some .temperature
  else if c = 5 then some .resistance
  else if c = 6 then some .statusFlag
  else none

/-- The LUT word with the given fields and its reserved bits zero (R80). -/
def packLut (kind : BitVec 3) (scale : BitVec 2) (width : BitVec 5) (cat : BitVec 3) (primary : Bool) : LutWord :=
  0#2 ++ BitVec.ofBool primary ++ cat ++ width ++ scale ++ kind

end Sys2Proof
end

