-- ==== Sys2Proof/Machine/Params.lean ====
section
/-! DEFINITION. The fixed parameters of the core (spec/00_scope.md R6). -/

namespace Sys2Proof.Machine

/-- `CRC_POLY_REFLECTED` (R6). -/
def crcPoly : Word16 := 0xA001
/-- `CRC_INIT`, the initial value (R6; spec/90_conflicts.md C2). -/
def crcInitValue : Word16 := 0x0000
/-- `STX` (R6). -/
def stx : Byte := 0x02
/-- `ENQ` (R6). -/
def enq : Byte := 0x05
/-- `ETX` (R6). -/
def etx : Byte := 0x03
/-- `MAX_PAYLOAD` (R6). -/
def maxPayload : Nat := 253
/-- `FRAME_OVERHEAD` (R6). -/
def frameOverhead : Nat := 9
/-- `OBUF_SIZE` = `MAX_PAYLOAD + FRAME_OVERHEAD` (R6). -/
def obufSize : Nat := maxPayload + frameOverhead
/-- The least legal `IBUF_SIZE`: the largest CRC region of a frame (R6). -/
def minIbufSize : Nat := 258
/-- `RESP_MIN_LEN` (R6). -/
def respMinLen : Nat := 3
/-- `RESP_HEADER`, where the decoder's cursor starts (R6). -/
def respHeader : Nat := 6
/-- `SBYTES` has 18 octets, the widest text field (spec/10_state.md R34). -/
def sbytesLen : Nat := 18

end Sys2Proof.Machine
end

