-- ==== Sys2Proof/Machine/Catalog.lean ====
section
/-! DEFINITION. The catalog: its span and offsets (spec/42_decoder.md R142), each check of its well-formedness (R141),
the example catalog of spec/95_test_vectors.md, and what the spec says of the shipped catalog (spec/00_scope.md R7). -/

namespace Sys2Proof.Machine

/-- `CATALOG_SPAN`, the sum of the entries' widths (R141 e). -/
def lutSpan (lut : List LutWord) : Nat := (lut.map lutWidth).sum

/-- `off(k)` = 6 + the widths of the entries before `k` (R142). -/
def fieldOffset (lut : List LutWord) (k : Nat) : Nat := respHeader + lutSpan (lut.take k)

/-- The `WIDTH` and `SCALE` the row of an entry's `KIND` allows (spec/30_encoding.md R81). -/
def entryLegal (e : LutWord) : Bool :=
  match fieldKind (lutKind e) with
  | some .uint8 => lutWidth e == 1 && lutScale e == 0
  | some .uint16be => lutWidth e == 2 && lutScale e == 0
  | some .uint32be => lutWidth e == 4 && lutScale e == 0
  | some .fixed16 => lutWidth e == 2 && lutScale e != 0
  | some .fixed32 => lutWidth e == 4 && lutScale e != 0
  | some .text => (lutWidth e == 11 || lutWidth e == 18) && lutScale e == 0
  | none => false

/-- Check (a): 1 to 256 entries. -/
def checkCount (c : Config) : Bool := decide (1 ≤ c.nFields) && decide (c.nFields ≤ 256)
/-- Check (b): every entry's `KIND`, `WIDTH` and `SCALE` agree with R81. -/
def checkEntries (c : Config) : Bool := c.lut.all entryLegal
/-- Check (c): every `CATEGORY` is 0 to 6 and the reserved bits are 0. -/
def checkCategories (c : Config) : Bool :=
  c.lut.all fun e => (category (lutCategory e)).isSome && lutReserved e == 0
/-- Check (d): exactly one entry has `PRIMARY` = 1. -/
def checkPrimary (c : Config) : Bool := c.lut.countP lutPrimary == 1
/-- Check (e): a full response fits in `IBUF`. -/
def checkSpan (c : Config) : Bool := decide (respHeader + lutSpan c.lut ≤ c.ibufSize)
/-- Check (f): the names are pairwise distinct. -/
def checkNames (c : Config) : Bool := decide (c.catalog.map (·.name)).Nodup
/-- `IBUF_SIZE` is at least 258 (R6) and fits the 16-bit constant `IBUFSZ` (R31; log entry 5). -/
def checkIbufSize (c : Config) : Bool := decide (minIbufSize ≤ c.ibufSize) && decide (c.ibufSize < 2 ^ 16)

/-- The example catalog EX of spec/95_test_vectors.md §2.3, which is not the device's. The words and names are that table's;
it has no `UNIT` column, and the unit strings here ("W", "Hz" and the empty ones) are the model's own: DESIGN CHOICE, safe,
log entry 21. -/
def exampleCatalog : List CatalogEntry :=
  [⟨packLut 5 0 11 0 false, "SAP Part Number", ""⟩,
   ⟨packLut 5 0 18 0 false, "SAP Serial Number", ""⟩,
   ⟨packLut 1 0 2 2 true, "AC Power", "W"⟩,
   ⟨packLut 3 2 2 2 false, "AC Frequency", "Hz"⟩,
   ⟨packLut 4 1 4 3 false, "example energy", ""⟩,
   ⟨packLut 0 0 1 6 false, "example status flag", ""⟩,
   ⟨packLut 2 0 4 3 false, "example runtime", ""⟩]

/-! ## What the spec says of the shipped catalog (R7 b to e), as properties a catalog may have (log entry 20) -/

/-- (b) It contains the two text fields. -/
def hasTextFields (cat : List CatalogEntry) : Bool :=
  (cat.any fun e => e.name == "SAP Part Number" && fieldKind (lutKind e.word) == some .text && lutWidth e.word == 11) &&
  (cat.any fun e => e.name == "SAP Serial Number" && fieldKind (lutKind e.word) == some .text && lutWidth e.word == 18)
/-- (c) It contains `AC Power`: unsigned 16-bit big-endian, no divisor, primary (spec/30_encoding.md R85). -/
def hasAcPower (cat : List CatalogEntry) : Bool :=
  cat.any fun e => e.name == "AC Power" && fieldKind (lutKind e.word) == some .uint16be && lutPrimary e.word
/-- (d) It contains `AC Frequency`: 2 bytes, divisor 100. -/
def hasAcFrequency (cat : List CatalogEntry) : Bool :=
  cat.any fun e => e.name == "AC Frequency" && lutWidth e.word == 2 && scaleDiv (lutScale e.word) == 100
/-- (e) It ends with eleven single unscaled status bytes. That each one's `CATEGORY` is 6 (status-flag) is the model's
reading of "status/alarm/failure flags": R7 (e) gives no category and R4 (j) leaves categories open. DEDUCED, safe,
log entry 20. -/
def endsInFlags (cat : List CatalogEntry) : Bool :=
  decide (11 ≤ cat.length) &&
  (cat.drop (cat.length - 11)).all fun e =>
    fieldKind (lutKind e.word) == some .uint8 && category (lutCategory e.word) == some .statusFlag
/-- The facts (b) to (e) together; no operation depends on them. -/
def shippedFacts (cat : List CatalogEntry) : Bool :=
  hasTextFields cat && hasAcPower cat && hasAcFrequency cat && endsInFlags cat

end Sys2Proof.Machine
end

