-- ==== Sys2Proof/WellFormed.lean ====
section
/-! DEFINITION. Well-formedness. An operation's operands are bit vectors of their fields' widths, so every `Instr` is
encodable and needs no check of its own (spec/30_encoding.md R71: every value of an operand field is legal in the
encoding). What can be ill-formed is the configuration (spec/42_decoder.md R141, spec/00_scope.md R6). -/

namespace Sys2Proof

/-- The configuration's checks: R141 (a) to (f), and the bounds of `IBUF_SIZE` (R6). -/
def Config.wf (c : Config) : Bool :=
  Machine.checkCount c && Machine.checkEntries c && Machine.checkCategories c && Machine.checkPrimary c &&
    Machine.checkSpan c && Machine.checkNames c && Machine.checkIbufSize c

/-- The example configuration: catalog EX and the spec's `IBUF_SIZE` (spec/95_test_vectors.md §2.3). -/
def Config.ofEX : Config := ⟨Machine.exampleCatalog, Config.specIbufSize⟩

/-- The configuration the machine is shipped with: the open catalog. An ill-formed catalog has no initial state
(spec/70_reset_and_hazards.md R214); since `State.reset` is one total definition, it takes the example catalog there
(DESIGN CHOICE, safe, log entry 3). -/
def Config.shipped : Config :=
  if Config.wf ⟨Config.openCatalog, Config.specIbufSize⟩ then ⟨Config.openCatalog, Config.specIbufSize⟩
  else Config.ofEX

end Sys2Proof
end

