-- ==== Sys2Proof/Machine/State.lean ====
section
/-! DEFINITION. The state of the machine, the reasons a step can stop, and the state after reset
(spec/10_state.md, spec/70_reset_and_hazards.md R210). Plain data. -/

namespace Sys2Proof.Machine

/-- A byte array in its one canonical form: (index, byte) pairs with strictly rising indexes. An index not listed
holds no value (R37; log entry 7). -/
abbrev Memory := List Host.Cell

/-- `STATUS` by its fields (R24). Bits [7:5] are hard-wired to 0 (R28) and are not stored (log entry 9). -/
structure Status where
  /-- `ERR`, bits [3:0]. -/
  err : BitVec 4
  /-- `VALID`, bit [4]. -/
  valid : Bool
  /-- `ERR_FIELD`, bits [15:8]. -/
  errField : Byte
  deriving DecidableEq, Repr

/-- One slot of `RESULT` (R34). -/
structure Slot where
  /-- `KIND`, a copy of the LUT entry's. -/
  kind : BitVec 3
  /-- `SCALE`, a copy of the LUT entry's. -/
  scale : BitVec 2
  /-- `RAW`: the unsigned integer read, 0 for a text field. -/
  raw : BitVec 32
  /-- `SLEN`: the trimmed text's length, 0 for a numeric field. -/
  slen : BitVec 5
  /-- `SBYTES[0..18)`. -/
  sbytes : List Byte
  deriving DecidableEq, Repr

/-- A move of the host (spec/20_memory.md R51), or `Reset`, the sixth (R210). -/
inductive HostMove where
  /-- `HostIssue(w)`. -/
  | issue (w : CmdWord)
  /-- `HostReadReg(n)`. -/
  | readReg (n : Nat)
  /-- `HostWriteIBUF(i, b)`. -/
  | writeIbuf (i : Nat) (b : Byte)
  /-- `HostReadOBUF(i)`. -/
  | readObuf (i : Nat)
  /-- `HostReadResult(k)`. -/
  | readResult (k : Nat)
  /-- `Reset`. -/
  | reset
  deriving DecidableEq, Repr

/-- The value a host read returns (R51). -/
inductive Reply where
  | reg (v : Word16)
  | byte (b : Byte)
  | slot (r : Slot)
  deriving DecidableEq, Repr

/-- Why the machine stops. -/
inductive Fault where
  /-- `UNWRITTEN_READ`: an operation (`CRC_COMPUTE`, `BUILD_QUERY`, `DECODE`) read the `IBUF` byte at `index`, which the
  host has not written since reset (R37). Safe: the hardware returns some byte the spec does not give. -/
  | unwrittenRead (index : Nat)
  /-- `HostReadReg(n)` with `n` ≥ 5 is no move (spec/20_memory.md R56). Safe: the model is stuck, log entry 6. -/
  | noMoveReadReg (n : Nat)
  /-- `HostWriteIBUF(i, b)` with `i` ≥ `IBUF_SIZE` is no move (R56). Safe: log entry 6. -/
  | noMoveWriteIbuf (i : Nat)
  /-- `HostReadOBUF(i)` with `i` ≥ `OLEN` is no move (R56). Safe: log entry 6. -/
  | noMoveReadObuf (i : Nat)
  /-- `HostReadResult(k)` with `k` ≥ `N_FIELDS` or `VALID` = 0 is no move (R56). Safe: log entry 6. -/
  | noMoveReadResult (k : Nat)
  /-- `HostReadOBUF(i)` below `OLEN` found a byte that holds no value. No run reaches it (`ObufInv`). Safe: log entry 12. -/
  | obufNoValue (i : Nat)
  /-- `HostReadResult(k)` with `VALID` = 1 found no slot `k`. No run reaches it (`ResultInv`). Safe: log entry 12. -/
  | resultNoValue (k : Nat)
  deriving DecidableEq, Repr

/-- Why the model gives no meaning. -/
inductive Refusal where
  /-- An arm of `exec` with no meaning yet. Raised by no arm. Safe. -/
  | notModelled (mnemonic : String)
  /-- The configuration's catalog is ill-formed (spec/42_decoder.md R141, spec/93 I16): raised when such a
  configuration is loaded, and by `DECODE` at an entry that breaks R81, which no well-formed catalog has.
  Safe: log entry 11. -/
  | illFormedCatalog
  /-- A host read of `STATUS` met an `ERR` of 7 to 15, which no operation writes (spec/93 I14). Safe: log entry 10. -/
  | reservedErr (err : BitVec 4)
  deriving DecidableEq, Repr

/-- The state: the core's registers and arrays, its configuration, and the host's side of the interface. -/
structure State where
  /-- The configuration: `LUT` with names and units, and `IBUF_SIZE` (R35, R214; log entry 4). `NFIELDS` and `IBUFSZ` are
  read from it (R31). -/
  config : Config
  /-- `STATUS` (R24). -/
  status : Status
  /-- `CRC` (R29). -/
  crc : Word16
  /-- `OLEN` (R30). -/
  olen : Word16
  /-- `IBUF`, its written bytes (R32, R37). -/
  ibuf : Memory
  /-- `OBUF`, its written bytes, stale ones included (R33, R37). -/
  obuf : Memory
  /-- `RESULT` (R34). -/
  result : List Slot
  /-- The host's moves to come, the next one first (R58; DESIGN CHOICE, log entry 1). -/
  moves : List HostMove
  /-- What the host's reads returned, the newest first (DESIGN CHOICE, log entry 2). -/
  replies : List Reply
  deriving DecidableEq, Repr

/-- The core just after reset under a configuration (R210), with no move pending and nothing read yet. -/
def State.afterReset (c : Config) : State where
  config := c
  status := ⟨0, false, 0⟩
  crc := 0
  olen := 0
  ibuf := []
  obuf := []
  result := []
  moves := []
  replies := []

/-- The machine right after reset (R210), under the shipped configuration. -/
def State.reset : State := State.afterReset Config.shipped

end Sys2Proof.Machine
end

