-- ==== Sys2Proof/Machine/Flags.lean ====
section
/-! DEFINITION. The error codes (spec/60_exceptions.md R180) and the STATUS word (spec/10_state.md R24). -/

namespace Sys2Proof.Machine

/-- The outcomes of an operation (R180). -/
inductive Err where
  | ok | shortResponse | truncatedFrame | corruptFrame | encodingError | preconditionViolation | illegalCommand
  deriving DecidableEq, Repr

/-- The `STATUS.ERR` code of an outcome (R180). -/
def errCode : Err → BitVec 4
  | .ok => 0
  | .shortResponse => 1
  | .truncatedFrame => 2
  | .corruptFrame => 3
  | .encodingError => 4
  | .preconditionViolation => 5
  | .illegalCommand => 6

/-- The outcome an `ERR` code names; 7 to 15 are reserved (R180). -/
def errOfCode (c : BitVec 4) : Option Err :=
  if c = 0 then some .ok
  else if c = 1 then some .shortResponse
  else if c = 2 then some .truncatedFrame
  else if c = 3 then some .corruptFrame
  else if c = 4 then some .encodingError
  else if c = 5 then some .preconditionViolation
  else if c = 6 then some .illegalCommand
  else none

/-- The 16 bits of `STATUS`: `ERR_FIELD`, three zeros, `VALID`, `ERR` (R24, R28). -/
def statusWord (st : Status) : Word16 := st.errField ++ 0#3 ++ BitVec.ofBool st.valid ++ st.err

/-- `STATUS` with the outcome of an issue: `ERR` and `ERR_FIELD` written, `VALID` kept (R25, R26, R27). -/
def statusOutcome (e : Err) (field : Byte) (st : Status) : Status :=
  { st with err := errCode e, errField := field }

end Sys2Proof.Machine
end

