-- ==== Sys2Proof/Machine/Ops.lean ====
section
/-! DEFINITION. The named operations over memory and registers (spec/00_scope.md R10): byte arrays, `complete`, `raise`
(which stands where another machine has trap entry, spec/60_exceptions.md R187), and reset. There is no return from an
exception (R188). -/

namespace Sys2Proof.Machine

/-! ## Byte arrays -/

/-- The canonical form: indexes strictly rising. -/
abbrev Memory.wf (m : Memory) : Prop := m.Pairwise fun x y => x.1 < y.1

/-- Every listed index is below `size`. -/
abbrev Memory.below (size : Nat) (m : Memory) : Prop := ∀ c ∈ m, c.1 < size

/-- The byte at an index, or none where nothing has been written (R37). -/
def Memory.read : Memory → Nat → Option Byte
  | [], _ => none
  | (i, b) :: m, a => if a = i then some b else Memory.read m a

/-- Write one byte, keeping the canonical form. -/
def Memory.write : Memory → Nat → Byte → Memory
  | [], a, b => [(a, b)]
  | (i, x) :: m, a, b =>
    if a < i then (a, b) :: (i, x) :: m
    else if a = i then (a, b) :: m
    else (i, x) :: Memory.write m a b

/-- `MemRead(m, i, n)` (R10): the bytes `m[i..i+n)`, or the first index among them that holds no value. -/
def Memory.readSeq (m : Memory) : Nat → Nat → Except Nat (List Byte)
  | _, 0 => .ok []
  | i, n + 1 =>
    match Memory.read m i with
    | none => .error i
    | some b =>
      match Memory.readSeq m (i + 1) n with
      | .ok bs => .ok (b :: bs)
      | .error j => .error j

/-- `MemWrite(m, i, s)` (R10): write `s` to `m[i..i+len(s))`. -/
def Memory.writeSeq : Memory → Nat → List Byte → Memory
  | m, _, [] => m
  | m, i, b :: bs => Memory.writeSeq (Memory.write m i b) (i + 1) bs

/-! ## Ending an operation -/

/-- `complete`: `ERR` and `ERR_FIELD` become 0 (spec/60_exceptions.md R183). -/
def State.complete (s : State) : State := { s with status := statusOutcome .ok 0 s.status }

/-- `raise E(field)`: `ERR` becomes the code and `ERR_FIELD` the field index (R184). The further effects (c) and (d) of
R184 are written by the operation that raises. -/
def State.raise (e : Err) (field : Byte) (s : State) : State := { s with status := statusOutcome e field s.status }

/-- Write `STATUS.VALID` (spec/10_state.md R26). -/
def State.setValid (v : Bool) (s : State) : State := { s with status := { s.status with valid := v } }

/-- `Reset` (spec/70_reset_and_hazards.md R210): every register at its reset value, no byte or slot holding a value, the
configuration unchanged. The host keeps what it has read and the moves it has still to make (log entry 14). -/
def State.resetCore (s : State) : State :=
  { State.afterReset s.config with moves := s.moves, replies := s.replies }

/-- Loading a configuration and resetting (R214, R213 steps 1 and 2): an ill-formed one is refused and there is no
initial state. -/
def configure (c : Config) : Host.Outcome State Fault Refusal :=
  if c.wf then .next (State.afterReset c) else .refused .illFormedCatalog

end Sys2Proof.Machine
end

