-- ==== Sys2Proof/Machine/Operands.lean ====
section
/-! DEFINITION. Operand forms and byte order (spec/00_scope.md R9, spec/20_memory.md R57), the operand sequence in `IBUF`,
and what a field of a response reads as (spec/42_decoder.md R147 to R153). -/

namespace Sys2Proof.Machine

/-- `lo8(x)` (R9). -/
def lo8 (x : Word16) : Byte := x.extractLsb' 0 8
/-- `hi8(x)` (R9). -/
def hi8 (x : Word16) : Byte := x.extractLsb' 8 8

/-- Byte `i` of a sequence as a number. Callers stay inside the sequence; past its end there is no byte and the model
uses none (the widths of R81 are checked first). -/
def byteAt (s : List Byte) (i : Nat) : Nat := (s.getD i 0).toNat

/-- `be16(s, i)` (R9, R57 b). -/
def be16 (s : List Byte) (i : Nat) : Nat := byteAt s i * 256 + byteAt s (i + 1)

/-- `be32(s, i)` (R9, R57 b). -/
def be32 (s : List Byte) (i : Nat) : Nat :=
  byteAt s i * 2 ^ 24 + byteAt s (i + 1) * 2 ^ 16 + byteAt s (i + 2) * 2 ^ 8 + byteAt s (i + 3)

/-- The operand sequence `IBUF[0..n)` of an operation (spec/30_encoding.md R72), or the first unwritten index. -/
def readOperand (s : State) (n : Word16) : Except Nat (List Byte) := s.ibuf.readSeq 0 n.toNat

/-! ## Fields of a response -/

/-- `TRIM_SET` (R152). -/
def trimSet : List Byte := [0x00, 0x09, 0x0A, 0x0B, 0x0C, 0x0D, 0x20]

/-- The trimmed length of the first `t` bytes: while the last one is in `TRIM_SET`, drop it (R151). -/
def trimLen (s : List Byte) : Nat → Nat
  | 0 => 0
  | t + 1 => if s.getD t 0 ∈ trimSet then trimLen s t else t + 1

/-- A text byte is invalid when it is 0x80 or above (R153). -/
def invalidText (b : Byte) : Bool := decide (0x80 ≤ b.toNat)

/-- `numeric(e, x)` (R140). -/
def numericSlot (e : LutWord) (x : Nat) : Slot where
  kind := lutKind e
  scale := lutScale e
  raw := BitVec.ofNat 32 x
  slen := 0
  sbytes := List.replicate sbytesLen 0

/-- `text(e, s)` (R151). -/
def textSlot (e : LutWord) (s : List Byte) : Slot where
  kind := lutKind e
  scale := 0
  raw := 0
  slen := BitVec.ofNat 5 (trimLen s s.length)
  sbytes := s.take (trimLen s s.length) ++ List.replicate (sbytesLen - trimLen s s.length) 0

/-- Why a field gives no slot. -/
inductive FieldProblem where
  /-- A text byte of 0x80 or above (R153). -/
  | invalidByte
  /-- The entry breaks R81, which no well-formed catalog has. -/
  | illegalEntry
  deriving DecidableEq, Repr

/-- The slot of catalog entry `e` whose bytes are `s` (the `case` of R140). -/
def fieldSlot (e : LutWord) (s : List Byte) : Except FieldProblem Slot :=
  match fieldKind (lutKind e) with
  | some .uint8 => .ok (numericSlot e (byteAt s 0))
  | some .uint16be => .ok (numericSlot e (be16 s 0))
  | some .uint32be => .ok (numericSlot e (be32 s 0))
  | some .fixed16 => .ok (numericSlot e (be16 s 0))
  | some .fixed32 => .ok (numericSlot e (be32 s 0))
  | some .text => if s.any invalidText then .error .invalidByte else .ok (textSlot e s)
  | none => .error .illegalEntry

/-! ## What a slot stands for -/

/-- The value of a slot: an exact rational or a text (R150, R151). -/
inductive FieldValue where
  | number (q : Rat)
  | text (bytes : List Byte)
  deriving DecidableEq

/-- `RAW / div(SCALE)` for a numeric slot, `SBYTES[0..SLEN)` for a text slot (R150, R151). -/
def slotValue (r : Slot) : FieldValue :=
  if fieldKind r.kind = some .text then .text (r.sbytes.take r.slen.toNat)
  else .number (mkRat r.raw.toNat (scaleDiv r.scale))

end Sys2Proof.Machine
end

