-- ==== Sys2Proof/Machine/Decoder.lean ====
section
/-! DEFINITION. The fixed-offset response decoder (spec/42_decoder.md): the field loop of R140 and `DECODE`. -/

namespace Sys2Proof.Machine

/-- Why the field loop ends before the last field. -/
inductive DecodeStop where
  /-- `raise E(k)` at field `k` (R145, R153). -/
  | raised (e : Err) (k : Nat)
  /-- The `IBUF` byte at `i` holds no value (R37). -/
  | unwritten (i : Nat)
  /-- An entry breaks R81. -/
  | illFormed
  deriving DecidableEq, Repr

/-- One field (R140): the span check, then the read of the whole field, then the content check (log entry 13). -/
def decodeField (m : Memory) (len cur k : Nat) (e : LutWord) : Except DecodeStop Slot :=
  if len < cur + lutWidth e then .error (.raised .truncatedFrame k)
  else if entryLegal e then
    match m.readSeq cur (lutWidth e) with
    | .error i => .error (.unwritten i)
    | .ok bs =>
      match fieldSlot e bs with
      | .error .invalidByte => .error (.raised .encodingError k)
      | .error .illegalEntry => .error .illFormed
      | .ok r => .ok r
  else .error .illFormed

/-- The field loop (R140): the entries from index `k` on, the cursor at `cur`, in catalog order (R145). -/
def decodeFields (m : Memory) (len : Nat) : Nat → Nat → List LutWord → Except DecodeStop (List Slot)
  | _, _, [] => .ok []
  | cur, k, e :: es =>
    match decodeField m len cur k e with
    | .error stop => .error stop
    | .ok r =>
      match decodeFields m len (cur + lutWidth e) (k + 1) es with
      | .error stop => .error stop
      | .ok rs => .ok (r :: rs)

/-- `DECODE` (R140). -/
def execDecode (n : Word16) (s : State) : Host.Outcome State Fault Refusal :=
  if s.config.ibufSize < n.toNat then .next ((s.setValid false).raise .preconditionViolation 0)
  else if n.toNat < respMinLen then .next ((s.setValid false).raise .shortResponse 0)
  else
    match decodeFields s.ibuf n.toNat respHeader 0 s.config.lut with
    | .error (.raised e k) => .next ((s.setValid false).raise e (BitVec.ofNat 8 k))
    | .error (.unwritten i) => .fault (.unwrittenRead i)
    | .error .illFormed => .refused .illFormedCatalog
    | .ok rs => .next (({ s with result := rs }.setValid true).complete)

/-! ## The reading, as the host sees it -/

/-- `DecodedReading` (spec/00_scope.md R12): while `VALID` = 1, each slot's value under its name and unit, in catalog
order (R146). -/
def State.reading (s : State) : Option (List (String × FieldValue × String)) :=
  if s.status.valid then
    some ((s.config.catalog.zip s.result).map fun x => (x.1.name, slotValue x.2, x.1.unit))
  else none

/-- The primary value: the slot whose entry has `PRIMARY` = 1 (R156). -/
def State.primaryValue (s : State) : Option FieldValue :=
  if s.status.valid then
    ((s.config.catalog.zip s.result).find? fun x => lutPrimary x.1.word).map fun x => slotValue x.2
  else none

end Sys2Proof.Machine
end

