-- ==== Sys2Proof/Machine/Crc.lean ====
section
/-! DEFINITION. The CRC-16 generator (spec/40_crc.md): its functions R100 to R102 and its operations R103 to R105. -/

namespace Sys2Proof.Machine

/-- `crc_step` (R100). -/
def crcStep (c : Word16) : Word16 := if c.getLsbD 0 then (c >>> 1) ^^^ crcPoly else c >>> 1

/-- `n` feedback steps. -/
def crcSteps : Nat → Word16 → Word16
  | 0, c => c
  | n + 1, c => crcSteps n (crcStep c)

/-- `crc_byte` (R101): the octet enters bits [7:0], then eight steps. -/
def crcByte (c : Word16) (b : Byte) : Word16 := crcSteps 8 (c ^^^ b.setWidth 16)

/-- The bit-serial form of R101: bit `i` of the octet enters at step `i`, least significant first
(spec/20_memory.md R60). -/
def crcByteSerial (c : Word16) (b : Byte) : Word16 :=
  (List.range 8).foldl (fun c i => crcStep (c ^^^ (BitVec.ofBool (b.getLsbD i)).setWidth 16)) c

/-- `crc16` (R102): from 0x0000, no final XOR, no byte swap. -/
def crc16 (s : List Byte) : Word16 := s.foldl crcByte crcInitValue

/-- `CRC_INIT` (R103). -/
def execCrcInit (s : State) : Host.Outcome State Fault Refusal :=
  .next { s with crc := crcInitValue }.complete

/-- `CRC_FEED` (R104). -/
def execCrcFeed (b : Byte) (s : State) : Host.Outcome State Fault Refusal :=
  .next { s with crc := crcByte s.crc b }.complete

/-- `CRC_COMPUTE` (R105). -/
def execCrcCompute (n : Word16) (s : State) : Host.Outcome State Fault Refusal :=
  if s.config.ibufSize < n.toNat then .next (s.raise .preconditionViolation 0)
  else
    match readOperand s n with
    | .error i => .fault (.unwrittenRead i)
    | .ok bs => .next { s with crc := crc16 bs }.complete

end Sys2Proof.Machine
end

