-- ==== Sys2Proof/Machine/Packer.lean ====
section
/-! DEFINITION. The query-frame packer (spec/41_frame_packer.md): `pack` R120 and `BUILD_QUERY` R121. -/

namespace Sys2Proof.Machine

/-- `body`: the bytes the CRC covers, ENQ to the last payload byte (R120, R122; spec/90_conflicts.md C1). -/
def packBody (addr cmd sub : Byte) (p : List Byte) : List Byte :=
  [enq, addr, BitVec.ofNat 8 (p.length + 2), cmd, sub] ++ p

/-- `pack` (R120): STX, body, CRC low byte, CRC high byte, ETX. -/
def pack (addr cmd sub : Byte) (p : List Byte) : List Byte :=
  [stx] ++ packBody addr cmd sub p ++
    [lo8 (crc16 (packBody addr cmd sub p)), hi8 (crc16 (packBody addr cmd sub p)), etx]

/-- The length a receiver finds from the frame's Length byte (spec/30_encoding.md R92). -/
def frameTotal (frame : List Byte) : Nat := byteAt frame 3 + 7

/-- `BUILD_QUERY` (R121, R123): the bound is checked before any `IBUF` read. -/
def execBuildQuery (addr cmd sub : Byte) (n : Word16) (s : State) : Host.Outcome State Fault Refusal :=
  if maxPayload < n.toNat then .next ({ s with olen := 0 }.raise .preconditionViolation 0)
  else
    match readOperand s n with
    | .error i => .fault (.unwrittenRead i)
    | .ok p =>
      .next { s with
        obuf := s.obuf.writeSeq 0 (pack addr cmd sub p)
        olen := BitVec.ofNat 16 (n.toNat + frameOverhead)
        crc := crc16 (packBody addr cmd sub p) }.complete

end Sys2Proof.Machine
end

