-- ==== Sys2Proof/Machine/Dispatch.lean ====
section
/-! DEFINITION. One arm per operation (spec/30_encoding.md R71), each one call of its meaning. -/

namespace Sys2Proof.Machine

def exec (i : Instr) (s : State) : Host.Outcome State Fault Refusal :=
  match i with
  | .crcInit => Sys2Proof.Machine.execCrcInit s
  | .crcFeed b => Sys2Proof.Machine.execCrcFeed b s
  | .crcCompute n => Sys2Proof.Machine.execCrcCompute n s
  | .buildQuery addr cmd sub n => Sys2Proof.Machine.execBuildQuery addr cmd sub n s
  | .decode n => Sys2Proof.Machine.execDecode n s

end Sys2Proof.Machine
end

