-- ==== Sys2Proof/Machine/Moves.lean ====
section
/-! DEFINITION. The host's moves (spec/20_memory.md R51 to R56) and what each does to the machine. -/

namespace Sys2Proof.Machine

/-- What the host has read, with one more value (log entry 2). -/
def State.reply (r : Reply) (s : State) : State := { s with replies := r :: s.replies }

/-- Register `n` of the host's register map (spec/10_state.md R36). -/
def readReg (s : State) (n : Nat) : Option Word16 :=
  if n = 0 then some (statusWord s.status)
  else if n = 1 then some s.crc
  else if n = 2 then some s.olen
  else if n = 3 then some (BitVec.ofNat 16 s.config.nFields)
  else if n = 4 then some (BitVec.ofNat 16 s.config.ibufSize)
  else none

/-- `HostIssue(w)`: the operation `w` encodes, or `ILLEGAL_COMMAND` with no other effect (R20, R73, R184 a). -/
def hostIssue (w : CmdWord) (s : State) : Host.Outcome State Fault Refusal :=
  match decodeCmd w with
  | .ok i => exec i s
  | .error _ => .next (s.raise .illegalCommand 0)

/-- `HostReadReg(n)` (R51). Reading `STATUS` with a reserved `ERR` is refused (spec/93 I14, log entry 10). -/
def hostReadReg (n : Nat) (s : State) : Host.Outcome State Fault Refusal :=
  match readReg s n with
  | none => .fault (.noMoveReadReg n)
  | some v =>
    if n = 0 ∧ errOfCode s.status.err = none then .refused (.reservedErr s.status.err)
    else .next (s.reply (.reg v))

/-- `HostWriteIBUF(i, b)` (R52). -/
def hostWriteIbuf (i : Nat) (b : Byte) (s : State) : Host.Outcome State Fault Refusal :=
  if i < s.config.ibufSize then .next { s with ibuf := s.ibuf.write i b }
  else .fault (.noMoveWriteIbuf i)

/-- `HostReadOBUF(i)` (R53). -/
def hostReadObuf (i : Nat) (s : State) : Host.Outcome State Fault Refusal :=
  if i < s.olen.toNat then
    match s.obuf.read i with
    | some b => .next (s.reply (.byte b))
    | none => .fault (.obufNoValue i)
  else .fault (.noMoveReadObuf i)

/-- `HostReadResult(k)` (R54). -/
def hostReadResult (k : Nat) (s : State) : Host.Outcome State Fault Refusal :=
  if k < s.config.nFields ∧ s.status.valid = true then
    match s.result[k]? with
    | some r => .next (s.reply (.slot r))
    | none => .fault (.resultNoValue k)
  else .fault (.noMoveReadResult k)

/-- One move of the host (R51), or `Reset` (spec/70_reset_and_hazards.md R210). -/
def hostMove (m : HostMove) (s : State) : Host.Outcome State Fault Refusal :=
  match m with
  | .issue w => hostIssue w s
  | .readReg n => hostReadReg n s
  | .writeIbuf i b => hostWriteIbuf i b s
  | .readObuf i => hostReadObuf i s
  | .readResult k => hostReadResult k s
  | .reset => .next s.resetCore

/-- The word of an operation placed as the host's next move: bits above `nbits` are 0 (log entry 15). -/
def issueTableWord (nbits w : Nat) : HostMove := .issue (BitVec.ofNat 48 (w % 2 ^ nbits))

/-! ## Command sequences (spec/30_encoding.md R75, R76) -/

/-- Operations issued one after another, each seeing the effects of every earlier one (spec/20_memory.md R58). -/
def runInstrs : List Instr → State → Host.Outcome State Fault Refusal
  | [], s => .next s
  | i :: is, s =>
    match exec i s with
    | .next t => runInstrs is t
    | .fault f => .fault f
    | .refused r => .refused r

/-- Moves of the host made one after another, in the order the host makes them (spec/20_memory.md R58). -/
def runMoves : List HostMove → State → Host.Outcome State Fault Refusal
  | [], s => .next s
  | m :: ms, s =>
    match hostMove m s with
    | .next t => runMoves ms t
    | .fault f => .fault f
    | .refused r => .refused r

/-- An operation as the host issues it. -/
def issueMove (i : Instr) : HostMove := .issue (encodeCmd i)

/-- `IBUF <- [b0, b1, ...]`: one `HostWriteIBUF` for each byte, from index `i` upward. -/
def loadIbuf : Nat → List Byte → List HostMove
  | _, [] => []
  | i, b :: bs => .writeIbuf i b :: loadIbuf (i + 1) bs

/-- A line of a command sequence: an operation, a pseudo-operation, or a host move as R75 writes it. -/
inductive AsmLine where
  | op (i : Instr)
  /-- `QUERY_STATUS addr`. -/
  | queryStatus (addr : Byte)
  /-- `CRC_SEQ b0, ..., bk`. -/
  | crcSeq (bs : List Byte)
  /-- `IBUF <- [b0, b1, ...]`. -/
  | loadIbuf (bs : List Byte)
  /-- `read STATUS`, `read CRC`, `read OLEN`. -/
  | readStatus | readCrc | readOlen
  /-- `read OBUF`, `OLEN` being the frame's length when the line is reached. -/
  | readObuf (olen : Nat)
  /-- `read RESULT[k]`. -/
  | readResult (k : Nat)
  deriving DecidableEq, Repr

/-- The host moves a line stands for (R75, R76). -/
def asmMoves : AsmLine → List HostMove
  | .op i => [issueMove i]
  | .queryStatus addr => [issueMove (queryStatus addr)]
  | .crcSeq bs => (crcSeq bs).map issueMove
  | .loadIbuf bs => loadIbuf 0 bs
  | .readStatus => [.readReg 0]
  | .readCrc => [.readReg 1]
  | .readOlen => [.readReg 2]
  | .readObuf olen => (List.range olen).map .readObuf
  | .readResult k => [.readResult k]

end Sys2Proof.Machine
end

