-- ==== Sys2Proof/Machine/Step.lean ====
section
/-! DEFINITION. One step: the host's next move, atomically (spec/20_memory.md R58, spec/10_state.md R20). The core has no
program counter and fetches nothing (R22). -/

namespace Sys2Proof.Machine

/-- With no move pending the core is idle and nothing changes (spec/60_exceptions.md R194; log entry 1). -/
def step (s : State) : Host.Outcome State Fault Refusal :=
  match s.moves with
  | [] => .next s
  | m :: ms => hostMove m { s with moves := ms }

/-- The operation word placed as the host's very next move, before those it already has (log entry 1). -/
def State.withFetchWord (s : State) (nbits w : Nat) : State :=
  { s with moves := issueTableWord nbits w :: s.moves }

end Sys2Proof.Machine
end

