-- ==== Sys2Proof/Safety.lean ====
section
/-! DEFINITION. What claims are stated in: the host's duties, the invariants of the machine, and the field-by-field
conditions of a DECODE. -/

namespace Sys2Proof.Machine

/-! ## The host's duties -/

/-- The precondition of a move (spec/20_memory.md R56). -/
def moveAllowed (m : HostMove) (s : State) : Bool :=
  match m with
  | .issue _ => true
  | .readReg n => decide (n < 5)
  | .writeIbuf i _ => decide (i < s.config.ibufSize)
  | .readObuf i => decide (i < s.olen.toNat)
  | .readResult k => decide (k < s.config.nFields) && s.status.valid
  | .reset => true

/-- `IBUF[a..b)` is written (spec/10_state.md R37). -/
def State.writtenRange (s : State) (a b : Nat) : Prop := ∀ i, a ≤ i → i < b → (s.ibuf.read i).isSome = true

/-- `IBUF[0..len(bs))` holds the sequence `bs` (spec/30_encoding.md R72). -/
def State.holds (s : State) (bs : List Byte) : Prop := ∀ i, i < bs.length → s.ibuf.read i = bs[i]?

/-- The operand bytes an operation can read are written (spec/70_reset_and_hazards.md R213 step 3). DECODE reads neither
the header nor the bytes after the catalog span (spec/42_decoder.md R154). -/
def operandsWritten (i : Instr) (s : State) : Prop :=
  match i with
  | .crcInit => True
  | .crcFeed _ => True
  | .crcCompute n => n.toNat ≤ s.config.ibufSize → s.writtenRange 0 n.toNat
  | .buildQuery _ _ _ n => n.toNat ≤ maxPayload → s.writtenRange 0 n.toNat
  | .decode n => n.toNat ≤ s.config.ibufSize → s.writtenRange respHeader (min n.toNat (respHeader + lutSpan s.config.lut))

/-- The operand bytes a move needs are written. -/
def moveReady (m : HostMove) (s : State) : Prop :=
  match m with
  | .issue w =>
    match decodeCmd w with
    | .ok i => operandsWritten i s
    | .error _ => True
  | .readReg _ => True
  | .writeIbuf _ _ => True
  | .readObuf _ => True
  | .readResult _ => True
  | .reset => True

/-- An illegal command word, as R73 and the table of R71 say it. -/
def illegalWord (w : CmdWord) : Prop :=
  (w.extractLsb' 0 8 ≠ 0x01#8 ∧ w.extractLsb' 0 8 ≠ 0x02#8 ∧ w.extractLsb' 0 8 ≠ 0x03#8 ∧
    w.extractLsb' 0 8 ≠ 0x10#8 ∧ w.extractLsb' 0 8 ≠ 0x20#8) ∨
  (w.extractLsb' 0 8 = 0x01#8 ∧ w.extractLsb' 8 40 ≠ 0) ∨
  (w.extractLsb' 0 8 = 0x02#8 ∧ w.extractLsb' 16 32 ≠ 0) ∨
  (w.extractLsb' 0 8 = 0x03#8 ∧ w.extractLsb' 8 24 ≠ 0) ∨
  (w.extractLsb' 0 8 = 0x20#8 ∧ w.extractLsb' 8 24 ≠ 0)

/-! ## Field-by-field conditions of a DECODE (spec/42_decoder.md R140, R142) -/

/-- The bytes of catalog entry `k`, at `off(k)`. -/
def fieldBytes (s : State) (k : Nat) (e : LutWord) : Except Nat (List Byte) :=
  s.ibuf.readSeq (fieldOffset s.config.lut k) (lutWidth e)

/-- Entry `k` passes every check of a DECODE of length `len`: its span lies within the response, its bytes are written,
and, for a text field, every byte is below 0x80. -/
def fieldGood (s : State) (len k : Nat) (e : LutWord) : Prop :=
  fieldOffset s.config.lut k + lutWidth e ≤ len ∧
    ∃ bs, fieldBytes s k e = .ok bs ∧ (fieldKind (lutKind e) = some .text → bs.any invalidText = false)

/-- The entries before `k` all pass. -/
def fieldsGoodBefore (s : State) (len k : Nat) : Prop :=
  ∀ j e, j < k → s.config.lut[j]? = some e → fieldGood s len j e

/-! ## Invariants -/

/-- The configuration is one that R141 and R6 allow. -/
def ConfigInv (s : State) : Prop := s.config.wf = true

/-- Both byte arrays are in canonical form and inside their spaces (spec/20_memory.md R50). -/
def MemoryInv (s : State) : Prop :=
  s.ibuf.wf ∧ s.ibuf.below s.config.ibufSize ∧ s.obuf.wf ∧ s.obuf.below obufSize

/-- `ERR` is a code some operation writes (spec/10_state.md R25, spec/60_exceptions.md R180); `ERR_FIELD` names a catalog
field after TRUNCATED_FRAME and ENCODING_ERROR and is 0 otherwise (R27); after an error that only DECODE raises, `VALID`
is 0 (R184 d). -/
def StatusInv (s : State) : Prop :=
  (∃ e, e ≠ Err.corruptFrame ∧ s.status.err = errCode e) ∧
  (s.status.err ≠ errCode .truncatedFrame → s.status.err ≠ errCode .encodingError → s.status.errField = 0) ∧
  (s.status.err = errCode .truncatedFrame ∨ s.status.err = errCode .encodingError →
    s.status.errField.toNat < s.config.nFields) ∧
  (s.status.err = errCode .shortResponse ∨ s.status.err = errCode .truncatedFrame ∨
    s.status.err = errCode .encodingError → s.status.valid = false)

/-- `OBUF[0..OLEN)` is empty or holds a query frame (R30, spec/30_encoding.md R90). -/
def ObufInv (s : State) : Prop :=
  s.olen = 0 ∨ ∃ addr cmd sub p, p.length ≤ maxPayload ∧ s.olen.toNat = p.length + frameOverhead ∧
    ∀ i, i < s.olen.toNat → s.obuf.read i = (pack addr cmd sub p)[i]?

/-- A slot of `RESULT` fits its LUT entry (R34, R147 to R153). -/
def slotFits (e : LutWord) (r : Slot) : Prop :=
  r.kind = lutKind e ∧ r.scale = lutScale e ∧ r.sbytes.length = sbytesLen ∧
    (∀ b ∈ r.sbytes.drop r.slen.toNat, b = 0) ∧
    (fieldKind (lutKind e) = some .text →
      r.raw = 0 ∧ r.slen.toNat ≤ lutWidth e ∧ (∀ b ∈ r.sbytes.take r.slen.toNat, invalidText b = false) ∧
      (∀ t, r.slen.toNat = t + 1 → r.sbytes.getD t 0 ∉ trimSet)) ∧
    (fieldKind (lutKind e) ≠ some .text → r.slen = 0 ∧ r.raw.toNat < 256 ^ lutWidth e)

/-- While `VALID` = 1, `RESULT` holds one fitting slot for each catalog entry, in catalog order (R34, R146). -/
def ResultInv (s : State) : Prop := s.status.valid = true → List.Forall₂ slotFits s.config.lut s.result

/-- All of them. -/
def State.Inv (s : State) : Prop := ConfigInv s ∧ MemoryInv s ∧ StatusInv s ∧ ObufInv s ∧ ResultInv s

/-- The outcome with its next state changed by `f`. -/
def mapNext (f : State → State) : Host.Outcome State Fault Refusal → Host.Outcome State Fault Refusal
  | .next t => .next (f t)
  | .fault r => .fault r
  | .refused r => .refused r

end Sys2Proof.Machine
end

