-- ==== Sys2Proof/Certificates/Slice0/Obligations.lean ====
section
/-! DEFINITION. The statements for the provers, from the numbered rules of spec/. Where a statement rests on a choice of the
model, its docstring names the log entry. -/

open Sys2Proof Sys2Proof.Machine

/-! ## Encodings (spec/30_encoding.md) -/

/-- Decoding the word of any operation, at every operand value, gives it back (30 section 1). -/
def Obligations.DecodeEncodeRoundTrip : Prop := ∀ i : Instr, decodeCmd (encodeCmd i) = .ok i

/-- A word that decodes is the encoding of what it decodes to: no word is silently accepted (30 section 1). -/
def Obligations.EncodeDecodeRoundTrip : Prop := ∀ (w : CmdWord) (i : Instr), decodeCmd w = .ok i → encodeCmd i = w

/-- R74: every 48-bit word decodes by the pseudocode of R74, and to nothing otherwise. -/
def Obligations.DecodeIsTotalByTable : Prop := ∀ w : CmdWord, (decodeCmd w).toOption =
  if w.extractLsb' 0 8 = 0x01#8 ∧ w.extractLsb' 8 40 = 0 then some .crcInit
  else if w.extractLsb' 0 8 = 0x02#8 ∧ w.extractLsb' 16 32 = 0 then some (.crcFeed (w.extractLsb' 8 8))
  else if w.extractLsb' 0 8 = 0x03#8 ∧ w.extractLsb' 8 24 = 0 then some (.crcCompute (w.extractLsb' 32 16))
  else if w.extractLsb' 0 8 = 0x10#8 then
    some (.buildQuery (w.extractLsb' 8 8) (w.extractLsb' 16 8) (w.extractLsb' 24 8) (w.extractLsb' 32 16))
  else if w.extractLsb' 0 8 = 0x20#8 ∧ w.extractLsb' 8 24 = 0 then some (.decode (w.extractLsb' 32 16))
  else none

/-- Words written out in spec/95_test_vectors.md decode to the operations they stand for. -/
def Obligations.DecodeWordsFromSpec : Prop :=
  decodeCmd 0x000000000001 = .ok .crcInit ∧
  decodeCmd 0x000000006002 = .ok (.crcFeed 0x60) ∧
  decodeCmd 0x000900000003 = .ok (.crcCompute 9) ∧
  decodeCmd 0x00FE01600110 = .ok (.buildQuery 1 0x60 0x01 254) ∧
  decodeCmd 0x003000000020 = .ok (.decode 48) ∧
  decodeCmd 0x000000000004 = .error (.unknownOpcode 4) ∧
  decodeCmd 0x003000000120 = .error (.nonzeroField 0x20)

/-- Every field of a LUT word is read back from where R80 places it (30 section 2). -/
def Obligations.LutWordFieldsRoundTrip : Prop :=
  ∀ (kind : BitVec 3) (scale : BitVec 2) (width : BitVec 5) (cat : BitVec 3) (primary : Bool),
    lutKind (packLut kind scale width cat primary) = kind ∧
    lutScale (packLut kind scale width cat primary) = scale ∧
    lutWidth (packLut kind scale width cat primary) = width.toNat ∧
    lutCategory (packLut kind scale width cat primary) = cat ∧
    lutPrimary (packLut kind scale width cat primary) = primary ∧
    lutReserved (packLut kind scale width cat primary) = 0

/-- R73: a word is illegal in exactly the cases (a) and (b); its issue raises ILLEGAL_COMMAND with no other effect;
the zero word is illegal. -/
def Obligations.IllegalWordRaises : Prop :=
  (∀ w : CmdWord, illegalWord w ↔ ∃ e, decodeCmd w = .error e) ∧
  (∀ (w : CmdWord) (s : State), illegalWord w →
    hostIssue w s = .next { s with status := { s.status with err := 6, errField := 0 } }) ∧
  illegalWord 0x000000000000

/-! ## Steps -/

/-- An issue whose word decodes to `i` steps to what `exec i` answers on the state without that move
(10 section 1; the list of moves is log entry 1). -/
def Obligations.StepRunsIssuedWord : Prop :=
  ∀ (s : State) (w : CmdWord) (ms : List HostMove) (i : Instr),
    s.moves = .issue w :: ms → decodeCmd w = .ok i → step s = exec i { s with moves := ms }

/-- The word of any operation, placed as the next move, is run by the very next step, and nothing else is changed
(log entry 1). -/
def Obligations.FetchWordRuns : Prop :=
  ∀ (s : State) (i : Instr), step (s.withFetchWord 48 (encodeCmd i).toNat) = exec i s

/-- With no move pending a step changes nothing: the core never acts on its own (00 section 6; log entry 1). -/
def Obligations.IdleStepKeepsState : Prop := ∀ s : State, s.moves = [] → step s = .next s

/-! ## The CRC-16 generator (spec/40_crc.md) -/

/-- R100: the feedback step, and the stages of its shift register: the bit leaving stage 0 goes into stages 15, 13 and 0
after the shift, and a 0 enters stage 15. -/
def Obligations.CrcStepStages : Prop := ∀ c : Word16,
  crcStep c = (if c.getLsbD 0 = true then (c >>> 1) ^^^ 0xA001#16 else c >>> 1) ∧
  (∀ i, i < 15 → (crcStep c).getLsbD i = (c.getLsbD (i + 1) ^^ (c.getLsbD 0 && (i == 13 || i == 0)))) ∧
  (crcStep c).getLsbD 15 = c.getLsbD 0

/-- The bit-serial form of the byte update gives the same result (40 section 1, marked there as derived). -/
def Obligations.CrcByteSerialAgrees : Prop := ∀ (c : Word16) (b : Byte), crcByteSerial c b = crcByte c b

/-- The CRC is linear over sequences of equal length (40 section 3, marked there as derived). -/
def Obligations.CrcLinear : Prop := ∀ s t : List Byte, s.length = t.length →
  crc16 (List.zipWith (· ^^^ ·) s t) = crc16 s ^^^ crc16 t

/-- A sequence followed by its CRC, low byte first, has CRC 0 (40 section 3, marked there as derived). -/
def Obligations.CrcResidue : Prop := ∀ s : List Byte, crc16 (s ++ [lo8 (crc16 s), hi8 (crc16 s)]) = 0

/-- Known vectors of spec/95_test_vectors.md section 2.1: the empty sequence, "123456789", the status query. -/
def Obligations.CrcKnownVectors : Prop :=
  crc16 [] = 0x0000 ∧ crc16 [0x31, 0x32, 0x33, 0x34, 0x35, 0x36, 0x37, 0x38, 0x39] = 0xBB3D ∧
  crc16 [0x05, 0x01, 0x02, 0x60, 0x01] = 0xFC85 ∧ crcByte 0x1234 0x56 = 0xE993

/-- R102: the CRC of a sequence starts at 0x0000 and folds in one byte after another, with nothing after the last. -/
def Obligations.CrcOfSequence : Prop :=
  crc16 [] = 0x0000 ∧ ∀ (s : List Byte) (b : Byte), crc16 (s ++ [b]) = crcByte (crc16 s) b

/-- `CRC_INIT` completes in every state: CRC is 0x0000, ERR and ERR_FIELD are 0, nothing else changes; its one word is
0x000000000001 and any other word with its code raises ILLEGAL_COMMAND; twice is the same as once (R103). -/
def Obligations.CrcInitResult : Prop :=
  (∀ s : State, exec .crcInit s =
    .next { s with crc := 0x0000, status := { s.status with err := 0, errField := 0 } }) ∧
  decodeCmd 0x000000000001 = .ok .crcInit ∧
  (∀ (w : CmdWord) (s : State), w.extractLsb' 0 8 = 0x01#8 → w ≠ 0x000000000001 →
    hostIssue w s = .next { s with status := { s.status with err := 6, errField := 0 } }) ∧
  (∀ s : State, runInstrs [.crcInit, .crcInit] s = runInstrs [.crcInit] s)

/-- `CRC_FEED b` completes in every state: CRC is advanced by `b`, ERR and ERR_FIELD are 0, nothing else changes; the
byte equal to a CRC below 0x100 cancels it (40 section 2). -/
def Obligations.CrcFeedResult : Prop :=
  (∀ (b : Byte) (s : State), exec (.crcFeed b) s =
    .next { s with crc := crcByte s.crc b, status := { s.status with err := 0, errField := 0 } }) ∧
  (∀ b : Byte, crcByte (b.setWidth 16) b = 0x0000) ∧ crcByte 0x0000 0x05 = 0x03C0

/-- `CRC_COMPUTE n` with `n` ≤ IBUF_SIZE and `IBUF[0..n)` written completes: CRC is the sequence's CRC whatever it was
before, ERR and ERR_FIELD are 0, nothing else changes (40 section 2). -/
def Obligations.CrcComputeCompletes : Prop :=
  ∀ (n : Word16) (bs : List Byte) (s : State), n.toNat ≤ s.config.ibufSize → bs.length = n.toNat → s.holds bs →
    exec (.crcCompute n) s =
      .next { s with crc := crc16 bs, status := { s.status with err := 0, errField := 0 } }

/-- `CRC_COMPUTE n` with `n` > IBUF_SIZE raises PRECONDITION_VIOLATION and reads no byte (40 section 2). -/
def Obligations.CrcComputeTooLong : Prop :=
  ∀ (n : Word16) (s : State), s.config.ibufSize < n.toNat →
    exec (.crcCompute n) s = .next { s with status := { s.status with err := 5, errField := 0 } }

/-- `CRC_COMPUTE` and `BUILD_QUERY` stop with UNWRITTEN_READ when an operand byte holds no value (10 section 8; log entry 7).
That the bytes are read in rising index, and that the fault names the first such byte, is the model's choice (DEDUCED:
log entry 13). -/
def Obligations.UnwrittenOperandFaults : Prop :=
  ∀ (n : Word16) (i : Nat) (s : State), i < n.toNat → s.writtenRange 0 i → s.ibuf.read i = none →
    (n.toNat ≤ s.config.ibufSize → exec (.crcCompute n) s = .fault (.unwrittenRead i)) ∧
    (∀ addr cmd sub : Byte, n.toNat ≤ 253 → exec (.buildQuery addr cmd sub n) s = .fault (.unwrittenRead i))

/-- Feeding a sequence byte by byte after `CRC_INIT` leaves the CRC that `CRC_COMPUTE` leaves for it
(40 section 3, marked there as derived). -/
def Obligations.CrcSeqEqualsCompute : Prop :=
  ∀ (n : Word16) (bs : List Byte) (s : State), n.toNat ≤ s.config.ibufSize → bs.length = n.toNat → s.holds bs →
    ∃ t, runInstrs (crcSeq bs) s = .next t ∧ exec (.crcCompute n) s = .next t ∧ t.crc = crc16 bs

/-! ## The query-frame packer (spec/41_frame_packer.md) -/

/-- R90 and R91: the layout of a query frame, index by index. -/
def Obligations.FrameLayout : Prop :=
  ∀ (addr cmd sub : Byte) (p : List Byte), p.length ≤ 253 →
    (pack addr cmd sub p).length = p.length + 9 ∧
    (pack addr cmd sub p)[0]? = some 0x02 ∧ (pack addr cmd sub p)[1]? = some 0x05 ∧
    (pack addr cmd sub p)[2]? = some addr ∧
    (∃ l : Byte, (pack addr cmd sub p)[3]? = some l ∧ l.toNat = p.length + 2) ∧
    (pack addr cmd sub p)[4]? = some cmd ∧ (pack addr cmd sub p)[5]? = some sub ∧
    (∀ j, j < p.length → (pack addr cmd sub p)[6 + j]? = p[j]?) ∧
    (∃ c : Word16, c = crc16 ([0x05, addr, BitVec.ofNat 8 (p.length + 2), cmd, sub] ++ p) ∧
      (pack addr cmd sub p)[6 + p.length]? = some (c.extractLsb' 0 8) ∧
      (pack addr cmd sub p)[7 + p.length]? = some (c.extractLsb' 8 8)) ∧
    (pack addr cmd sub p)[8 + p.length]? = some 0x03

/-- The CRC over ENQ through CRC-high of any frame is 0 (41 section 3, marked there as derived). -/
def Obligations.FrameResidueZero : Prop :=
  ∀ (addr cmd sub : Byte) (p : List Byte),
    crc16 (((pack addr cmd sub p).drop 1).take (p.length + 7)) = 0

/-- The observed status query's frame and the total length its Length byte gives (30 section 3, marked there as derived). -/
def Obligations.QueryStatusFrame : Prop :=
  queryStatus 1 = .buildQuery 1 0x60 0x01 0 ∧
  pack 1 0x60 0x01 [] = [0x02, 0x05, 0x01, 0x02, 0x60, 0x01, 0x85, 0xFC, 0x03] ∧ frameTotal (pack 1 0x60 0x01 []) = 9

/-- `BUILD_QUERY` with `N` ≤ 253 and the payload written completes: the frame stands in `OBUF[0..N+9)` and every byte above
it is as before, OLEN is N + 9, CRC is the frame's, ERR and ERR_FIELD are 0, VALID and everything else as before
(41 section 2). -/
def Obligations.BuildQueryCompletes : Prop :=
  ∀ (addr cmd sub : Byte) (n : Word16) (p : List Byte) (s : State),
    n.toNat ≤ 253 → p.length = n.toNat → s.holds p →
    ∃ ob : Memory,
      exec (.buildQuery addr cmd sub n) s = .next { s with
        obuf := ob
        olen := n + 9
        crc := crc16 ([0x05, addr, BitVec.ofNat 8 (p.length + 2), cmd, sub] ++ p)
        status := { s.status with err := 0, errField := 0 } } ∧
      (∀ a, a < p.length + 9 → ob.read a = (pack addr cmd sub p)[a]?) ∧
      (∀ a, p.length + 9 ≤ a → ob.read a = s.obuf.read a)

/-- R123: every `N` above 253 raises PRECONDITION_VIOLATION before any `IBUF` read, with OLEN 0 and nothing else changed;
a smaller one never raises. -/
def Obligations.BuildQueryTooLong : Prop :=
  ∀ (addr cmd sub : Byte) (n : Word16) (s : State),
    (253 < n.toNat → exec (.buildQuery addr cmd sub n) s =
      .next { s with olen := 0, status := { s.status with err := 5, errField := 0 } }) ∧
    (n.toNat ≤ 253 → ∀ t, exec (.buildQuery addr cmd sub n) s = .next t → t.status.err = 0)

/-- After a successful `BUILD_QUERY`, CRC is the value the frame carries, and the outcome does not depend on the CRC held
before (41 section 2). -/
def Obligations.BuildQueryCrcInFrame : Prop :=
  ∀ (addr cmd sub : Byte) (n : Word16) (s t : State),
    exec (.buildQuery addr cmd sub n) s = .next t → t.status.err = 0 →
      (∃ lo hi : Byte, t.obuf.read (6 + n.toNat) = some lo ∧ t.obuf.read (7 + n.toNat) = some hi ∧
        t.crc.toNat = lo.toNat + 256 * hi.toNat) ∧
      ∀ c : Word16, exec (.buildQuery addr cmd sub n) { s with crc := c } = .next t

/-! ## The response decoder (spec/42_decoder.md) -/

/-- `DECODE` completes when `L` ≤ IBUF_SIZE and every field lies within `L`, is written, and, if text, has no byte of 0x80 or
above: one slot for each entry in catalog order, each made of the bytes at its own offset, VALID is 1, ERR and ERR_FIELD
are 0, nothing else changes (42 sections 1 and 2). -/
def Obligations.DecodeCompletes : Prop :=
  ∀ (n : Word16) (s : State), s.config.wf = true → n.toNat ≤ s.config.ibufSize →
    (∀ k e, s.config.lut[k]? = some e → fieldGood s n.toNat k e) →
    ∃ rs : List Slot,
      exec (.decode n) s = .next { s with result := rs, status := ⟨0, true, 0⟩ } ∧
      rs.length = s.config.nFields ∧
      ∀ k e bs, s.config.lut[k]? = some e → fieldBytes s k e = .ok bs → ∃ r, rs[k]? = some r ∧ fieldSlot e bs = .ok r

/-- R185: the first failing check decides the outcome: legality, the LEN bound, the minimum length, then the fields in
catalog order, in each the span before the content. -/
def Obligations.DecodeErrorPriority : Prop :=
  (∀ (w : CmdWord) (s : State), illegalWord w →
    hostIssue w s = .next { s with status := { s.status with err := 6, errField := 0 } }) ∧
  (∀ (n : Word16) (s : State), s.config.ibufSize < n.toNat →
    exec (.crcCompute n) s = .next { s with status := { s.status with err := 5, errField := 0 } } ∧
    exec (.decode n) s = .next { s with status := ⟨5, false, 0⟩ }) ∧
  (∀ (addr cmd sub : Byte) (n : Word16) (s : State), 253 < n.toNat →
    exec (.buildQuery addr cmd sub n) s =
      .next { s with olen := 0, status := { s.status with err := 5, errField := 0 } }) ∧
  (∀ (n : Word16) (s : State), n.toNat ≤ s.config.ibufSize → n.toNat < 3 →
    exec (.decode n) s = .next { s with status := ⟨1, false, 0⟩ }) ∧
  (∀ (n : Word16) (s : State) (k : Nat) (e : LutWord), s.config.wf = true →
    n.toNat ≤ s.config.ibufSize → 3 ≤ n.toNat → s.config.lut[k]? = some e → fieldsGoodBefore s n.toNat k →
    (n.toNat < fieldOffset s.config.lut k + lutWidth e →
      exec (.decode n) s = .next { s with status := ⟨2, false, BitVec.ofNat 8 k⟩ }) ∧
    (fieldOffset s.config.lut k + lutWidth e ≤ n.toNat →
      ∀ bs, fieldBytes s k e = .ok bs → fieldKind (lutKind e) = some .text → (∃ b ∈ bs, 0x80 ≤ b.toNat) →
      exec (.decode n) s = .next { s with status := ⟨4, false, BitVec.ofNat 8 k⟩ }))

/-- `DECODE` stops with UNWRITTEN_READ when a byte of a field holds no value and every field before passes (10 section 8,
42 section 2; log entry 7). That a field's bytes are read in rising index, that the fault names the first such byte, and that
it comes before the check of the field's content, is the model's choice (DEDUCED: log entry 13). -/
def Obligations.DecodeUnwrittenFaults : Prop :=
  ∀ (n : Word16) (s : State) (k i : Nat) (e : LutWord), s.config.wf = true →
    n.toNat ≤ s.config.ibufSize → 3 ≤ n.toNat → s.config.lut[k]? = some e → fieldsGoodBefore s n.toNat k →
    fieldOffset s.config.lut k + lutWidth e ≤ n.toNat → fieldOffset s.config.lut k ≤ i →
    i < fieldOffset s.config.lut k + lutWidth e → s.writtenRange (fieldOffset s.config.lut k) i → s.ibuf.read i = none →
    exec (.decode n) s = .fault (.unwrittenRead i)

/-- R154: the six header bytes and the bytes after the catalog span, written or not, never change the outcome. -/
def Obligations.DecodeIgnoresHeaderAndTrailer : Prop :=
  ∀ (n : Word16) (s : State) (m : Memory),
    (∀ i, 6 ≤ i → i < 6 + lutSpan s.config.lut → m.read i = s.ibuf.read i) →
    exec (.decode n) { s with ibuf := m } = mapNext (fun t => { t with ibuf := m }) (exec (.decode n) s)

/-- `DECODE` depends on IBUF, the catalog and its operand alone: two states that agree on them get the same STATUS and the
same reading, or the same fault (42 section 4). -/
def Obligations.DecodeIndependent : Prop :=
  ∀ (n : Word16) (s s' : State), s.config = s'.config → s.ibuf = s'.ibuf →
    (∀ t, exec (.decode n) s = .next t → ∃ t', exec (.decode n) s' = .next t' ∧ t'.status = t.status ∧
      (t.status.valid = true → t'.result = t.result)) ∧
    (∀ f, exec (.decode n) s = .fault f → exec (.decode n) s' = .fault f)

/-- A successful `DECODE` leaves a reading with exactly the catalog's entries, in catalog order (42 section 2). -/
def Obligations.ReadingIsComplete : Prop :=
  ∀ (n : Word16) (s t : State), exec (.decode n) s = .next t → t.status.err = 0 →
    ∃ l, t.reading = some l ∧ l.map (·.1) = s.config.catalog.map (·.name)

/-- Integer fields are read most significant byte first into RAW, and the slot copies KIND and SCALE (42 section 3). -/
def Obligations.NumericFieldsBigEndian : Prop :=
  ∀ (e : LutWord) (a b c d : Byte),
    (fieldKind (lutKind e) = some .uint8 →
      fieldSlot e [a] = .ok ⟨lutKind e, lutScale e, 0#24 ++ a, 0, List.replicate 18 0⟩) ∧
    (fieldKind (lutKind e) = some .uint16be ∨ fieldKind (lutKind e) = some .fixed16 →
      fieldSlot e [a, b] = .ok ⟨lutKind e, lutScale e, 0#16 ++ a ++ b, 0, List.replicate 18 0⟩) ∧
    (fieldKind (lutKind e) = some .uint32be ∨ fieldKind (lutKind e) = some .fixed32 →
      fieldSlot e [a, b, c, d] = .ok ⟨lutKind e, lutScale e, a ++ b ++ c ++ d, 0, List.replicate 18 0⟩)

/-- R151 with the set of R152: a text field of at most 18 bytes, all below 0x80, is cut exactly at its trailing bytes of the
trim set, padded with 0x00, and stands for the text before the cut. -/
def Obligations.TextFieldTrimmed : Prop :=
  ∀ (e : LutWord) (bs : List Byte), fieldKind (lutKind e) = some .text → bs.length ≤ 18 →
    (∀ b ∈ bs, b.toNat < 0x80) →
    ∃ (t : Nat) (r : Slot), t ≤ bs.length ∧ fieldSlot e bs = .ok r ∧
      r.kind = lutKind e ∧ r.scale = 0 ∧ r.raw = 0 ∧ r.slen.toNat = t ∧
      r.sbytes = bs.take t ++ List.replicate (18 - t) 0 ∧
      (∀ b ∈ bs.drop t, b ∈ [0x00#8, 0x09#8, 0x0A#8, 0x0B#8, 0x0C#8, 0x0D#8, 0x20#8]) ∧
      (∀ u b, t = u + 1 → bs[u]? = some b → b ∉ [0x00#8, 0x09#8, 0x0A#8, 0x0B#8, 0x0C#8, 0x0D#8, 0x20#8]) ∧
      slotValue r = .text (bs.take t)

/-- The value of a numeric slot is the exact rational RAW divided by the power of ten its SCALE names (42 section 3,
30 section 2). -/
def Obligations.ScaledValueExact : Prop :=
  ∀ r : Slot, fieldKind r.kind ≠ some .text →
    ∃ q : Rat, slotValue r = .number q ∧ q * (10 : Rat) ^ r.scale.toNat = (r.raw.toNat : Rat)

/-- The fields tile the response from byte 6 to the end of the span (42 section 1, marked there as derived). -/
def Obligations.FieldsTile : Prop :=
  ∀ lut : List LutWord, fieldOffset lut 0 = 6 ∧ fieldOffset lut lut.length = 6 + lutSpan lut ∧
    ∀ k e, lut[k]? = some e → fieldOffset lut (k + 1) = fieldOffset lut k + lutWidth e

/-! ## What operations change and leave (spec/60_exceptions.md section 2) -/

/-- The frame of every operation: `CRC_INIT`, `CRC_FEED` and `CRC_COMPUTE` write at most CRC, ERR and ERR_FIELD;
`BUILD_QUERY` writes at most OLEN, CRC, ERR, ERR_FIELD and the frame's bytes `OBUF[0..OLEN)`; `DECODE` writes at most STATUS
and RESULT. No operation writes IBUF or the configuration. -/
def Obligations.OperationFrames : Prop :=
  ∀ (i : Instr) (s t : State), exec i s = .next t →
    match i with
    | .crcInit => t = { s with crc := t.crc, status := t.status } ∧ t.status.valid = s.status.valid
    | .crcFeed _ => t = { s with crc := t.crc, status := t.status } ∧ t.status.valid = s.status.valid
    | .crcCompute _ => t = { s with crc := t.crc, status := t.status } ∧ t.status.valid = s.status.valid
    | .buildQuery _ _ _ _ =>
      t = { s with obuf := t.obuf, olen := t.olen, crc := t.crc, status := t.status } ∧
        t.status.valid = s.status.valid ∧ ∀ a, t.olen.toNat ≤ a → t.obuf.read a = s.obuf.read a
    | .decode _ => t = { s with result := t.result, status := t.status }

/-- R184: what each error changes besides ERR and ERR_FIELD, and the field index a DECODE error reports: 0 after
SHORT_RESPONSE and PRECONDITION_VIOLATION, and after TRUNCATED_FRAME and ENCODING_ERROR the index of the first catalog field
that fails a check. -/
def Obligations.ErrorEffects : Prop :=
  (∀ (w : CmdWord) (s : State), illegalWord w →
    hostIssue w s = .next { s with status := { s.status with err := 6, errField := 0 } }) ∧
  (∀ (n : Word16) (s t : State), exec (.crcCompute n) s = .next t → t.status.err ≠ 0 →
    t = { s with status := { s.status with err := 5, errField := 0 } }) ∧
  (∀ (addr cmd sub : Byte) (n : Word16) (s t : State), exec (.buildQuery addr cmd sub n) s = .next t →
    t.status.err ≠ 0 → t = { s with olen := 0, status := { s.status with err := 5, errField := 0 } }) ∧
  (∀ (n : Word16) (s t : State), exec (.decode n) s = .next t → t.status.err ≠ 0 →
    t.status.valid = false ∧ t = { s with status := t.status } ∧
    (((t.status.err = 1 ∨ t.status.err = 5) ∧ t.status.errField = 0) ∨
      ∃ k e, s.config.lut[k]? = some e ∧ t.status.errField = BitVec.ofNat 8 k ∧ fieldsGoodBefore s n.toNat k ∧
        ((t.status.err = 2 ∧ n.toNat < fieldOffset s.config.lut k + lutWidth e) ∨
          (t.status.err = 4 ∧ fieldOffset s.config.lut k + lutWidth e ≤ n.toNat ∧
            fieldKind (lutKind e) = some .text ∧ ∃ bs, fieldBytes s k e = .ok bs ∧ ∃ b ∈ bs, 0x80 ≤ b.toNat)))) ∧
  (∀ (i : Instr) (s t : State), exec i s = .next t → t.status.err ≠ 0 →
    t.crc = s.crc ∧ t.ibuf = s.ibuf ∧ t.config.lut = s.config.lut)

/-- R181: which errors each operation can raise; no operation raises CORRUPT_FRAME, none fails in another way, and the only
fault is an unwritten operand byte. -/
def Obligations.ErrorsPerOperation : Prop :=
  (∀ (i : Instr) (s t : State), exec i s = .next t →
    match i with
    | .crcInit => t.status.err = 0
    | .crcFeed _ => t.status.err = 0
    | .crcCompute _ => t.status.err = 0 ∨ t.status.err = 5
    | .buildQuery _ _ _ _ => t.status.err = 0 ∨ t.status.err = 5
    | .decode _ => t.status.err = 0 ∨ t.status.err = 5 ∨ t.status.err = 1 ∨ t.status.err = 2 ∨ t.status.err = 4) ∧
  (∀ (w : CmdWord) (s t : State), illegalWord w → hostIssue w s = .next t → t.status.err = 6) ∧
  (∀ w : CmdWord, w.extractLsb' 0 8 = 0x10#8 → ¬illegalWord w) ∧
  (∀ (i : Instr) (s : State) (f : Fault), exec i s = .fault f →
    ∃ a, f = .unwrittenRead a ∧ s.ibuf.read a = none) ∧
  (∀ (i : Instr) (s : State) (r : Refusal), s.config.wf = true → exec i s ≠ .refused r)

/-- R26: VALID is written by `DECODE` and reset only: 1 on success, 0 on any error `DECODE` raises, 0 at reset. -/
def Obligations.ValidWriters : Prop :=
  (∀ (n : Word16) (s t : State), exec (.decode n) s = .next t → t.status.valid = decide (t.status.err = 0)) ∧
  (∀ (i : Instr) (s t : State), (∀ n, i ≠ .decode n) → exec i s = .next t → t.status.valid = s.status.valid) ∧
  (∀ (w : CmdWord) (s t : State), illegalWord w → hostIssue w s = .next t → t.status.valid = s.status.valid) ∧
  (∀ s t : State, hostMove .reset s = .next t → t.status.valid = false) ∧
  (∀ (m : HostMove) (s t : State), (∀ w, m ≠ .issue w) → m ≠ .reset → hostMove m s = .next t →
    t.status.valid = s.status.valid)

/-- CRC is written by reset and by a successful `CRC_INIT`, `CRC_FEED`, `CRC_COMPUTE` or `BUILD_QUERY` alone
(10 section 4). -/
def Obligations.CrcWriters : Prop :=
  ∀ (m : HostMove) (s t : State), hostMove m s = .next t → t.crc ≠ s.crc →
    (m = .reset ∧ t.crc = 0) ∨
    ∃ w i, m = .issue w ∧ decodeCmd w = .ok i ∧ (∀ n, i ≠ .decode n) ∧ t.status.err = 0

/-! ## Registers and moves of the host (spec/10_state.md, spec/20_memory.md) -/

/-- R28, and the places of the other fields of STATUS: the reserved bits read as 0 in every state. -/
def Obligations.StatusLayout : Prop := ∀ st : Status,
  (statusWord st).extractLsb' 5 3 = 0 ∧
  (statusWord st).extractLsb' 0 4 = st.err ∧ (statusWord st).getLsbD 4 = st.valid ∧
  (statusWord st).extractLsb' 8 8 = st.errField

/-- `HostReadReg` returns the five registers of the map and changes nothing but what the host has read; another number is no
move (10 section 7; log entries 2 and 10). -/
def Obligations.ReadRegReturns : Prop := ∀ s : State,
  ((∃ e, s.status.err = errCode e) →
    hostMove (.readReg 0) s = .next { s with replies := .reg (statusWord s.status) :: s.replies }) ∧
  hostMove (.readReg 1) s = .next { s with replies := .reg s.crc :: s.replies } ∧
  hostMove (.readReg 2) s = .next { s with replies := .reg s.olen :: s.replies } ∧
  hostMove (.readReg 3) s = .next { s with replies := .reg (BitVec.ofNat 16 s.config.lut.length) :: s.replies } ∧
  hostMove (.readReg 4) s = .next { s with replies := .reg (BitVec.ofNat 16 s.config.ibufSize) :: s.replies } ∧
  ∀ n, 5 ≤ n → hostMove (.readReg n) s = .fault (.noMoveReadReg n)

/-- `HostWriteIBUF(i, b)` with `i` < IBUF_SIZE writes that byte, marks it written, and changes nothing else (20 section 2). -/
def Obligations.WriteIbufWrites : Prop :=
  ∀ (i : Nat) (b : Byte) (s : State), i < s.config.ibufSize →
    ∃ m : Memory, hostMove (.writeIbuf i b) s = .next { s with ibuf := m } ∧ m.read i = some b ∧
      ∀ a, a ≠ i → m.read a = s.ibuf.read a

/-- `HostReadOBUF(i)` with `i` < OLEN returns `OBUF[i]` in every state whose OBUF holds a frame (20 section 2;
log entry 2). -/
def Obligations.ReadObufReturns : Prop :=
  ∀ (i : Nat) (s : State), ObufInv s → i < s.olen.toNat →
    ∃ b, s.obuf.read i = some b ∧ hostMove (.readObuf i) s = .next { s with replies := .byte b :: s.replies }

/-- `HostReadResult(k)` with `k` < N_FIELDS and VALID = 1 returns slot `k` in every state whose reading is whole
(20 section 2; log entry 2). -/
def Obligations.ReadResultReturns : Prop :=
  ∀ (k : Nat) (s : State), ResultInv s → k < s.config.nFields → s.status.valid = true →
    ∃ r, s.result[k]? = some r ∧ hostMove (.readResult k) s = .next { s with replies := .slot r :: s.replies }

/-- R56: a move whose precondition fails has no transition. -/
def Obligations.ForbiddenMovesDoNotMove : Prop :=
  (∀ (i : Nat) (b : Byte) (s t : State), s.config.ibufSize ≤ i → hostMove (.writeIbuf i b) s ≠ .next t) ∧
  (∀ (i : Nat) (s t : State), s.olen.toNat ≤ i → hostMove (.readObuf i) s ≠ .next t) ∧
  (∀ (k : Nat) (s t : State), s.config.nFields ≤ k ∨ s.status.valid = false → hostMove (.readResult k) s ≠ .next t) ∧
  (∀ (n : Nat) (s t : State), 5 ≤ n → hostMove (.readReg n) s ≠ .next t)

/-- A read changes nothing but what the host has read, and made again with no issue between, whatever reads and IBUF writes
stand between, it returns the same value; `HostWriteIBUF` changes only the byte it writes; only an issue (and reset) changes
registers, OBUF or RESULT (20 section 4). That a read's value is put in front of the list `replies` is the model's choice
(log entry 2), and reset as a move is log entry 14. -/
def Obligations.ReadsHaveNoEffect : Prop :=
  (∀ (m : HostMove) (s t : State),
    (∃ n, m = .readReg n) ∨ (∃ i, m = .readObuf i) ∨ (∃ k, m = .readResult k) → hostMove m s = .next t →
    ∃ r, t = { s with replies := r :: s.replies } ∧
      ∀ (ms : List HostMove) (u : State), (∀ m' ∈ ms, (∀ w, m' ≠ .issue w) ∧ m' ≠ .reset) → runMoves ms t = .next u →
        hostMove m u = .next { u with replies := r :: u.replies }) ∧
  (∀ (i : Nat) (b : Byte) (s t : State), hostMove (.writeIbuf i b) s = .next t →
    t = { s with ibuf := t.ibuf } ∧ ∀ a, a ≠ i → t.ibuf.read a = s.ibuf.read a) ∧
  (∀ (m : HostMove) (s t : State), (∀ w, m ≠ .issue w) → m ≠ .reset → hostMove m s = .next t →
    t.status = s.status ∧ t.crc = s.crc ∧ t.olen = s.olen ∧ t.obuf = s.obuf ∧ t.result = s.result)

/-- R210: what reset leaves: STATUS, CRC and OLEN are 0, NFIELDS and IBUFSZ keep their constants, every IBUF byte is
unwritten, neither OBUF nor RESULT can be read, and the LUT is unchanged. -/
def Obligations.ResetEffect : Prop := ∀ s : State, ∃ t,
  hostMove .reset s = .next t ∧ readReg t 0 = some 0x0000 ∧ readReg t 1 = some 0x0000 ∧ readReg t 2 = some 0x0000 ∧
  readReg t 3 = some (BitVec.ofNat 16 s.config.nFields) ∧ readReg t 4 = some (BitVec.ofNat 16 s.config.ibufSize) ∧
  (∀ i, t.ibuf.read i = none) ∧ (∀ i u, hostMove (.readObuf i) t ≠ .next u) ∧
  (∀ k u, hostMove (.readResult k) t ≠ .next u) ∧ t.config.lut = s.config.lut

/-! ## Invariants and whole-machine rules -/

/-- R220: no step changes the LUT, nor anything else of the configuration. -/
def Obligations.ConfigImmutable : Prop := ∀ s t : State, step s = .next t → t.config = s.config

/-- Every step keeps both byte arrays in canonical form and inside their spaces (20 section 1). -/
def Obligations.StepKeepsMemories : Prop := ∀ s t : State, MemoryInv s → step s = .next t → MemoryInv t

/-- Every step keeps `OBUF[0..OLEN)` empty or a whole query frame: no partial frame is ever visible (20 section 4). -/
def Obligations.StepKeepsFrame : Prop := ∀ s t : State, ObufInv s → step s = .next t → ObufInv t

/-- Every step keeps ERR a code that operations write, ERR_FIELD the index of a field exactly for the two field errors, and
VALID 0 after an error that only `DECODE` raises (10 section 3). -/
def Obligations.StepKeepsStatus : Prop := ∀ s t : State, StatusInv s → step s = .next t → StatusInv t

/-- Every step keeps, while VALID = 1, one slot in RESULT for each catalog entry that fits the entry: no partial reading is
ever visible (20 section 4, 42 section 2). -/
def Obligations.StepKeepsReading : Prop := ∀ s t : State, ResultInv s → step s = .next t → ResultInv t

/-- The state after reset meets every invariant (the catalog there is the open one where it is well-formed: log entry 3). -/
def Obligations.ResetMeetsInvariants : Prop := State.reset.Inv

/-- From every state that meets the invariants, a move the host may make, whose operand bytes it has written, has a next
state, and that state meets the invariants: a host that does its duty never stops the machine. -/
def Obligations.DutifulHostNeverStops : Prop :=
  ∀ (m : HostMove) (s : State), s.Inv → moveAllowed m s = true → moveReady m s →
    ∃ t, hostMove m s = .next t ∧ t.Inv

/-- A configuration is well-formed exactly when it passes checks (a) to (f) of the catalog, with the KIND, WIDTH and SCALE
of every entry a row of the table of 30 section 2, and IBUF_SIZE is at least 258 and below 65536 (the upper bound is
DEDUCED: log entry 5); it is loaded exactly then, and an ill-formed one is refused and gives no state (42 section 1,
70 section 2). -/
def Obligations.ConfigureRefusesIllFormed : Prop := ∀ c : Config,
  (c.wf = true ↔
    (1 ≤ c.catalog.length ∧ c.catalog.length ≤ 256) ∧
    (∀ e ∈ c.catalog,
      ((e.word.extractLsb' 0 3).toNat, (e.word.extractLsb' 5 5).toNat, (e.word.extractLsb' 3 2).toNat) ∈
        [(0, 1, 0), (1, 2, 0), (2, 4, 0), (3, 2, 1), (3, 2, 2), (3, 2, 3), (4, 4, 1), (4, 4, 2), (4, 4, 3),
          (5, 11, 0), (5, 18, 0)]) ∧
    (∀ e ∈ c.catalog, (e.word.extractLsb' 10 3).toNat ≤ 6 ∧ e.word.extractLsb' 14 2 = 0) ∧
    (∃ k, k < c.catalog.length ∧ ∀ (j : Nat) (e : CatalogEntry), c.catalog[j]? = some e → (e.word.getLsbD 13 = true ↔ j = k)) ∧
    6 + (c.catalog.map fun e => (e.word.extractLsb' 5 5).toNat).sum ≤ c.ibufSize ∧
    (∀ (i j : Nat) (d e : CatalogEntry), i < j → c.catalog[i]? = some d → c.catalog[j]? = some e → d.name ≠ e.name) ∧
    258 ≤ c.ibufSize ∧ c.ibufSize < 65536) ∧
  (c.wf = true → configure c = .next (State.afterReset c)) ∧
  (c.wf = false → configure c = .refused .illFormedCatalog)
end

