-- ==== Sys2Proof/Laws/Crc.lean ====
section
/-! SUPPORT. Small laws of the CRC functions (spec/40_crc.md R100 to R102). -/

namespace Sys2Proof.Machine

@[simp] theorem crcSteps_zero (c : Word16) : crcSteps 0 c = c := rfl

theorem crcSteps_succ (n : Nat) (c : Word16) : crcSteps (n + 1) c = crcSteps n (crcStep c) := rfl

/-- Steps add up. -/
theorem crcSteps_add (m n : Nat) (c : Word16) : crcSteps (m + n) c = crcSteps n (crcSteps m c) := by
  induction m generalizing c with
  | zero => simp
  | succ m ih => rw [show m + 1 + n = (m + n) + 1 by omega, crcSteps_succ, crcSteps_succ, ih]

@[simp] theorem crc16_nil : crc16 [] = 0 := rfl

/-- The CRC of a sequence with more bytes after it: those bytes folded in from its CRC (R106). -/
theorem crc16_append (s t : List Byte) : crc16 (s ++ t) = t.foldl crcByte (crc16 s) := by
  simp [crc16]

/-- One more byte at the end. -/
theorem crc16_concat (s : List Byte) (b : Byte) : crc16 (s ++ [b]) = crcByte (crc16 s) b := by
  simp [crc16_append]

end Sys2Proof.Machine
end

