-- ==== Sys2Proof/Laws/Decode.lean ====
section
/-! SUPPORT. The fields of a packed command word, which every proof about encodings cites. -/

namespace Sys2Proof

theorem cmdOpc_packCmd (opc p0 p1 p2 : Byte) (len : Word16) : cmdOpc (packCmd opc p0 p1 p2 len) = opc := by
  ext i hi
  simp only [cmdOpc, packCmd, BitVec.getElem_extractLsb', BitVec.getLsbD_append]
  simp [hi]

theorem cmdP0_packCmd (opc p0 p1 p2 : Byte) (len : Word16) : cmdP0 (packCmd opc p0 p1 p2 len) = p0 := by
  ext i hi
  simp only [cmdP0, packCmd, BitVec.getElem_extractLsb', BitVec.getLsbD_append]
  have h1 : ¬8 + i < 8 := by omega
  have h2 : 8 + i - 8 = i := by omega
  simp [h2, hi]

theorem cmdP1_packCmd (opc p0 p1 p2 : Byte) (len : Word16) : cmdP1 (packCmd opc p0 p1 p2 len) = p1 := by
  ext i hi
  simp only [cmdP1, packCmd, BitVec.getElem_extractLsb', BitVec.getLsbD_append]
  have h1 : ¬16 + i < 8 := by omega
  have h2 : ¬16 + i - 8 < 8 := by omega
  have h3 : 16 + i - 8 - 8 = i := by omega
  simp [h1, h2, h3, hi]

theorem cmdP2_packCmd (opc p0 p1 p2 : Byte) (len : Word16) : cmdP2 (packCmd opc p0 p1 p2 len) = p2 := by
  ext i hi
  simp only [cmdP2, packCmd, BitVec.getElem_extractLsb', BitVec.getLsbD_append]
  have h1 : ¬24 + i < 8 := by omega
  have h2 : ¬24 + i - 8 < 8 := by omega
  have h3 : ¬24 + i - 8 - 8 < 8 := by omega
  have h4 : 24 + i - 8 - 8 - 8 = i := by omega
  simp [h1, h2, h3, h4, hi]

theorem cmdLen_packCmd (opc p0 p1 p2 : Byte) (len : Word16) : cmdLen (packCmd opc p0 p1 p2 len) = len := by
  ext i hi
  simp only [cmdLen, packCmd, BitVec.getElem_extractLsb', BitVec.getLsbD_append]
  have h1 : ¬32 + i < 8 := by omega
  have h2 : ¬32 + i - 8 < 8 := by omega
  have h3 : ¬32 + i - 8 - 8 < 8 := by omega
  have h4 : ¬32 + i - 8 - 8 - 8 < 8 := by omega
  have h5 : 32 + i - 8 - 8 - 8 - 8 = i := by omega
  simp [h1, h2, h3, h4, h5, BitVec.getLsbD_eq_getElem hi]

/-- The operation code of an encoded operation is its own (R71). -/
theorem cmdOpc_encodeCmd (i : Instr) : cmdOpc (encodeCmd i) = opcodeOf i := by
  cases i <;> exact cmdOpc_packCmd _ _ _ _ _

end Sys2Proof
end

