-- ==== Sys2Proof/Laws/State.lean ====
section
/-! SUPPORT. One lemma for each field under each named update of the state, so that no proof unfolds a record update. -/

namespace Sys2Proof.Machine

/-! ## `complete` -/

@[simp] theorem State.complete_config (s : State) : s.complete.config = s.config := rfl
@[simp] theorem State.complete_status (s : State) : s.complete.status = statusOutcome .ok 0 s.status := rfl
@[simp] theorem State.complete_crc (s : State) : s.complete.crc = s.crc := rfl
@[simp] theorem State.complete_olen (s : State) : s.complete.olen = s.olen := rfl
@[simp] theorem State.complete_ibuf (s : State) : s.complete.ibuf = s.ibuf := rfl
@[simp] theorem State.complete_obuf (s : State) : s.complete.obuf = s.obuf := rfl
@[simp] theorem State.complete_result (s : State) : s.complete.result = s.result := rfl
@[simp] theorem State.complete_moves (s : State) : s.complete.moves = s.moves := rfl
@[simp] theorem State.complete_replies (s : State) : s.complete.replies = s.replies := rfl

/-! ## `raise` -/

@[simp] theorem State.raise_config (e : Err) (f : Byte) (s : State) : (s.raise e f).config = s.config := rfl
@[simp] theorem State.raise_status (e : Err) (f : Byte) (s : State) : (s.raise e f).status = statusOutcome e f s.status := rfl
@[simp] theorem State.raise_crc (e : Err) (f : Byte) (s : State) : (s.raise e f).crc = s.crc := rfl
@[simp] theorem State.raise_olen (e : Err) (f : Byte) (s : State) : (s.raise e f).olen = s.olen := rfl
@[simp] theorem State.raise_ibuf (e : Err) (f : Byte) (s : State) : (s.raise e f).ibuf = s.ibuf := rfl
@[simp] theorem State.raise_obuf (e : Err) (f : Byte) (s : State) : (s.raise e f).obuf = s.obuf := rfl
@[simp] theorem State.raise_result (e : Err) (f : Byte) (s : State) : (s.raise e f).result = s.result := rfl
@[simp] theorem State.raise_moves (e : Err) (f : Byte) (s : State) : (s.raise e f).moves = s.moves := rfl
@[simp] theorem State.raise_replies (e : Err) (f : Byte) (s : State) : (s.raise e f).replies = s.replies := rfl

/-! ## `setValid` -/

@[simp] theorem State.setValid_config (v : Bool) (s : State) : (s.setValid v).config = s.config := rfl
@[simp] theorem State.setValid_status (v : Bool) (s : State) : (s.setValid v).status = { s.status with valid := v } := rfl
@[simp] theorem State.setValid_crc (v : Bool) (s : State) : (s.setValid v).crc = s.crc := rfl
@[simp] theorem State.setValid_olen (v : Bool) (s : State) : (s.setValid v).olen = s.olen := rfl
@[simp] theorem State.setValid_ibuf (v : Bool) (s : State) : (s.setValid v).ibuf = s.ibuf := rfl
@[simp] theorem State.setValid_obuf (v : Bool) (s : State) : (s.setValid v).obuf = s.obuf := rfl
@[simp] theorem State.setValid_result (v : Bool) (s : State) : (s.setValid v).result = s.result := rfl
@[simp] theorem State.setValid_moves (v : Bool) (s : State) : (s.setValid v).moves = s.moves := rfl
@[simp] theorem State.setValid_replies (v : Bool) (s : State) : (s.setValid v).replies = s.replies := rfl

/-! ## `reply` -/

@[simp] theorem State.reply_config (r : Reply) (s : State) : (s.reply r).config = s.config := rfl
@[simp] theorem State.reply_status (r : Reply) (s : State) : (s.reply r).status = s.status := rfl
@[simp] theorem State.reply_crc (r : Reply) (s : State) : (s.reply r).crc = s.crc := rfl
@[simp] theorem State.reply_olen (r : Reply) (s : State) : (s.reply r).olen = s.olen := rfl
@[simp] theorem State.reply_ibuf (r : Reply) (s : State) : (s.reply r).ibuf = s.ibuf := rfl
@[simp] theorem State.reply_obuf (r : Reply) (s : State) : (s.reply r).obuf = s.obuf := rfl
@[simp] theorem State.reply_result (r : Reply) (s : State) : (s.reply r).result = s.result := rfl
@[simp] theorem State.reply_moves (r : Reply) (s : State) : (s.reply r).moves = s.moves := rfl
@[simp] theorem State.reply_replies (r : Reply) (s : State) : (s.reply r).replies = r :: s.replies := rfl

/-! ## `resetCore` -/

@[simp] theorem State.resetCore_config (s : State) : s.resetCore.config = s.config := rfl
@[simp] theorem State.resetCore_status (s : State) : s.resetCore.status = ⟨0, false, 0⟩ := rfl
@[simp] theorem State.resetCore_crc (s : State) : s.resetCore.crc = 0 := rfl
@[simp] theorem State.resetCore_olen (s : State) : s.resetCore.olen = 0 := rfl
@[simp] theorem State.resetCore_ibuf (s : State) : s.resetCore.ibuf = [] := rfl
@[simp] theorem State.resetCore_obuf (s : State) : s.resetCore.obuf = [] := rfl
@[simp] theorem State.resetCore_result (s : State) : s.resetCore.result = [] := rfl
@[simp] theorem State.resetCore_moves (s : State) : s.resetCore.moves = s.moves := rfl
@[simp] theorem State.resetCore_replies (s : State) : s.resetCore.replies = s.replies := rfl

/-! ## `withFetchWord` -/

@[simp] theorem State.withFetchWord_config (nbits w : Nat) (s : State) : (s.withFetchWord nbits w).config = s.config := rfl
@[simp] theorem State.withFetchWord_status (nbits w : Nat) (s : State) : (s.withFetchWord nbits w).status = s.status := rfl
@[simp] theorem State.withFetchWord_crc (nbits w : Nat) (s : State) : (s.withFetchWord nbits w).crc = s.crc := rfl
@[simp] theorem State.withFetchWord_olen (nbits w : Nat) (s : State) : (s.withFetchWord nbits w).olen = s.olen := rfl
@[simp] theorem State.withFetchWord_ibuf (nbits w : Nat) (s : State) : (s.withFetchWord nbits w).ibuf = s.ibuf := rfl
@[simp] theorem State.withFetchWord_obuf (nbits w : Nat) (s : State) : (s.withFetchWord nbits w).obuf = s.obuf := rfl
@[simp] theorem State.withFetchWord_result (nbits w : Nat) (s : State) : (s.withFetchWord nbits w).result = s.result := rfl
@[simp] theorem State.withFetchWord_moves (nbits w : Nat) (s : State) : (s.withFetchWord nbits w).moves = issueTableWord nbits w :: s.moves := rfl
@[simp] theorem State.withFetchWord_replies (nbits w : Nat) (s : State) : (s.withFetchWord nbits w).replies = s.replies := rfl

/-! ## The state after reset under a configuration -/

@[simp] theorem State.afterReset_config (c : Config) : (State.afterReset c).config = c := rfl
@[simp] theorem State.afterReset_status (c : Config) : (State.afterReset c).status = ⟨0, false, 0⟩ := rfl
@[simp] theorem State.afterReset_crc (c : Config) : (State.afterReset c).crc = 0 := rfl
@[simp] theorem State.afterReset_olen (c : Config) : (State.afterReset c).olen = 0 := rfl
@[simp] theorem State.afterReset_ibuf (c : Config) : (State.afterReset c).ibuf = [] := rfl
@[simp] theorem State.afterReset_obuf (c : Config) : (State.afterReset c).obuf = [] := rfl
@[simp] theorem State.afterReset_result (c : Config) : (State.afterReset c).result = [] := rfl
@[simp] theorem State.afterReset_moves (c : Config) : (State.afterReset c).moves = [] := rfl
@[simp] theorem State.afterReset_replies (c : Config) : (State.afterReset c).replies = [] := rfl

/-! ## STATUS -/

@[simp] theorem statusOutcome_err (e : Err) (f : Byte) (st : Status) : (statusOutcome e f st).err = errCode e := rfl
@[simp] theorem statusOutcome_valid (e : Err) (f : Byte) (st : Status) : (statusOutcome e f st).valid = st.valid := rfl
@[simp] theorem statusOutcome_errField (e : Err) (f : Byte) (st : Status) : (statusOutcome e f st).errField = f := rfl

/-- An error code names its outcome back. -/
@[simp] theorem errOfCode_errCode (e : Err) : errOfCode (errCode e) = some e := by cases e <;> rfl

/-- Distinct outcomes have distinct codes. -/
theorem errCode_injective {a b : Err} (h : errCode a = errCode b) : a = b := by
  have h' : errOfCode (errCode a) = errOfCode (errCode b) := congrArg errOfCode h
  simpa using h'

@[simp] theorem errCode_inj {a b : Err} : errCode a = errCode b ↔ a = b :=
  ⟨errCode_injective, congrArg errCode⟩

@[simp] theorem errCode_eq_zero {e : Err} : errCode e = 0#4 ↔ e = .ok := by cases e <;> decide

end Sys2Proof.Machine
end

