-- ==== Sys2Proof/Laws/Memory.lean ====
section
/-! SUPPORT. The laws of the byte arrays: a read after a write, the canonical form kept by every operation, and what reading
and writing a sequence does. -/

namespace Sys2Proof.Machine

/-! ## One byte -/

@[simp] theorem Memory.read_nil (a : Nat) : Memory.read [] a = none := rfl

/-- A read where the byte was written gives that byte. -/
@[simp] theorem Memory.read_write_same (m : Memory) (a : Nat) (b : Byte) :
    (Memory.write m a b).read a = some b := by
  induction m with
  | nil => simp [Memory.write, Memory.read]
  | cons c m ih =>
    obtain ⟨i, x⟩ := c
    unfold Memory.write
    split
    · simp [Memory.read]
    · split
      · simp [Memory.read]
      · next h => simp [Memory.read, h, ih]

/-- A write leaves every other index as it was. -/
theorem Memory.read_write_other (m : Memory) {a i : Nat} (b : Byte) (h : i ≠ a) :
    (Memory.write m a b).read i = m.read i := by
  induction m with
  | nil => simp [Memory.write, Memory.read, h]
  | cons c m ih =>
    obtain ⟨j, x⟩ := c
    unfold Memory.write
    split
    · simp [Memory.read, h]
    · split
      · next h2 => subst h2; simp [Memory.read, h]
      · simp only [Memory.read, ih]

/-- Both laws at once. -/
theorem Memory.read_write (m : Memory) (a i : Nat) (b : Byte) :
    (Memory.write m a b).read i = if i = a then some b else m.read i := by
  split
  · next h => subst h; exact Memory.read_write_same m i b
  · next h => exact Memory.read_write_other m b h

/-- The indexes a write lists: the old ones and the written one. -/
theorem Memory.mem_write {m : Memory} {a : Nat} {b : Byte} {c : Host.Cell} (h : c ∈ Memory.write m a b) :
    c = (a, b) ∨ c ∈ m := by
  induction m with
  | nil => simpa [Memory.write] using h
  | cons d m ih =>
    obtain ⟨j, x⟩ := d
    unfold Memory.write at h
    split at h
    · simpa using h
    · split at h
      · rcases List.mem_cons.1 h with h | h
        · exact .inl h
        · exact .inr (List.mem_cons_of_mem _ h)
      · rcases List.mem_cons.1 h with h | h
        · exact .inr (by simp [h])
        · exact (ih h).imp_right (List.mem_cons_of_mem _)

/-- A write keeps the canonical form. -/
theorem Memory.write_wf {m : Memory} (h : m.wf) (a : Nat) (b : Byte) : (Memory.write m a b).wf := by
  induction m with
  | nil => simp [Memory.write, Memory.wf]
  | cons c m ih =>
    obtain ⟨j, x⟩ := c
    have hc := List.pairwise_cons.1 h
    unfold Memory.write
    split
    · next ha =>
      refine List.pairwise_cons.2 ⟨?_, h⟩
      intro d hd
      rcases List.mem_cons.1 hd with rfl | hd
      · exact ha
      · exact ha.trans (hc.1 d hd)
    · split
      · next ha => subst ha; exact List.pairwise_cons.2 ⟨hc.1, hc.2⟩
      · next h1 h2 =>
        refine List.pairwise_cons.2 ⟨?_, ih hc.2⟩
        intro d hd
        rcases Memory.mem_write hd with rfl | hd
        · show j < a
          omega
        · exact hc.1 d hd

/-- A write inside the space keeps every index inside it. -/
theorem Memory.write_below {m : Memory} {n a : Nat} (h : m.below n) (ha : a < n) (b : Byte) :
    (Memory.write m a b).below n := by
  intro c hc
  rcases Memory.mem_write hc with rfl | hc
  · exact ha
  · exact h c hc

/-- Both byte arrays are in canonical form after reset. -/
theorem reset_memories_wf : State.reset.ibuf.wf ∧ State.reset.obuf.wf := ⟨List.Pairwise.nil, List.Pairwise.nil⟩

/-! ## Writing a sequence -/

@[simp] theorem Memory.writeSeq_nil (m : Memory) (i : Nat) : m.writeSeq i [] = m := rfl

@[simp] theorem Memory.writeSeq_cons (m : Memory) (i : Nat) (b : Byte) (bs : List Byte) :
    m.writeSeq i (b :: bs) = (m.write i b).writeSeq (i + 1) bs := rfl

/-- Writing a sequence keeps the canonical form. -/
theorem Memory.writeSeq_wf {m : Memory} (h : m.wf) (i : Nat) (bs : List Byte) : (m.writeSeq i bs).wf := by
  induction bs generalizing m i with
  | nil => exact h
  | cons b bs ih => exact ih (Memory.write_wf h i b) (i + 1)

/-- Writing a sequence that ends inside the space keeps every index inside it. -/
theorem Memory.writeSeq_below {m : Memory} {n i : Nat} {bs : List Byte} (h : m.below n)
    (hn : i + bs.length ≤ n) : (m.writeSeq i bs).below n := by
  induction bs generalizing m i with
  | nil => exact h
  | cons b bs ih =>
    simp only [List.length_cons] at hn
    exact ih (Memory.write_below h (by omega) b) (by omega)

/-- Writing a sequence leaves the indexes below it as they were. -/
theorem Memory.read_writeSeq_before (m : Memory) {i a : Nat} (bs : List Byte) (h : a < i) :
    (m.writeSeq i bs).read a = m.read a := by
  induction bs generalizing m i with
  | nil => rfl
  | cons b bs ih =>
    rw [Memory.writeSeq_cons, ih _ (by omega), Memory.read_write_other _ _ (by omega)]

/-- What an index reads after a sequence is written: the sequence's byte inside it, the old byte outside it. -/
theorem Memory.read_writeSeq (m : Memory) (i a : Nat) (bs : List Byte) :
    (m.writeSeq i bs).read a = if i ≤ a ∧ a < i + bs.length then bs[a - i]? else m.read a := by
  induction bs generalizing m i with
  | nil =>
    rw [if_neg (by simp only [List.length_nil]; omega)]
    rfl
  | cons b bs ih =>
    rw [Memory.writeSeq_cons]
    by_cases h : a = i
    · subst h
      rw [Memory.read_writeSeq_before _ _ (by omega)]
      simp
    · rw [ih, Memory.read_write_other _ _ h]
      by_cases h2 : i + 1 ≤ a ∧ a < i + 1 + bs.length
      · have h3 : i ≤ a ∧ a < i + (b :: bs).length := by simp only [List.length_cons]; omega
        rw [if_pos h2, if_pos h3, show a - i = (a - (i + 1)) + 1 by omega, List.getElem?_cons_succ]
      · have h3 : ¬(i ≤ a ∧ a < i + (b :: bs).length) := by simp only [List.length_cons]; omega
        rw [if_neg h2, if_neg h3]

/-! ## Reading a sequence -/

@[simp] theorem Memory.readSeq_zero (m : Memory) (i : Nat) : m.readSeq i 0 = .ok [] := rfl

/-- Reading a sequence answers `bs` exactly when `bs` has that length and every index holds its byte. -/
theorem Memory.readSeq_ok_iff (m : Memory) (i n : Nat) (bs : List Byte) :
    m.readSeq i n = .ok bs ↔ bs.length = n ∧ ∀ j, j < n → m.read (i + j) = bs[j]? := by
  induction n generalizing i bs with
  | zero => cases bs <;> simp
  | succ n ih =>
    unfold Memory.readSeq
    constructor
    · intro h
      split at h
      · cases h
      · next b hb =>
        split at h
        · next rest hr =>
          cases h
          obtain ⟨hl, hj⟩ := (ih (i + 1) rest).1 hr
          refine ⟨by simp [hl], fun j hlt => ?_⟩
          cases j with
          | zero => simpa using hb
          | succ j => rw [List.getElem?_cons_succ, ← hj j (by omega)]; congr 1; omega
        · cases h
    · rintro ⟨hl, hj⟩
      cases bs with
      | nil => simp at hl
      | cons b rest =>
        have h0 : m.read i = some b := by simpa using hj 0 (by omega)
        have hr : m.readSeq (i + 1) n = .ok rest := by
          refine (ih (i + 1) rest).2 ⟨by simpa using hl, fun j hlt => ?_⟩
          have := hj (j + 1) (by omega)
          rw [List.getElem?_cons_succ] at this
          rw [← this]; congr 1; omega
        rw [h0]; simp only [hr]

/-- Reading a sequence answers the first index that holds no value. -/
theorem Memory.readSeq_error_iff (m : Memory) (i n k : Nat) :
    m.readSeq i n = .error k ↔
      i ≤ k ∧ k < i + n ∧ m.read k = none ∧ ∀ j, i ≤ j → j < k → (m.read j).isSome = true := by
  induction n generalizing i with
  | zero => simp; omega
  | succ n ih =>
    unfold Memory.readSeq
    cases h0 : m.read i with
    | none =>
      simp only
      constructor
      · rintro h; cases h
        exact ⟨le_refl _, by omega, h0, fun j _ _ => by omega⟩
      · rintro ⟨hk, _, _, hj⟩
        rcases Nat.lt_or_ge i k with hlt | hge
        · have := hj i (le_refl _) hlt
          simp [h0] at this
        · rw [show i = k by omega]
    | some b =>
      have hih := ih (i + 1)
      cases hr : m.readSeq (i + 1) n with
      | ok bs =>
        rw [hr] at hih
        simp only [reduceCtorEq, false_iff] at hih ⊢
        rintro ⟨hk, hn, hv, hj⟩
        have : i ≠ k := by rintro rfl; simp [h0] at hv
        exact hih ⟨by omega, by omega, hv, fun j h1 h2 => hj j (by omega) h2⟩
      | error e =>
      rw [hr] at hih
      simp only [hih]
      constructor
      · rintro ⟨hk, hn, hv, hj⟩
        refine ⟨by omega, by omega, hv, fun j h1 h2 => ?_⟩
        rcases Nat.lt_or_ge i j with h3 | h3
        · exact hj j (by omega) h2
        · rw [show j = i by omega, h0]; rfl
      · rintro ⟨hk, hn, hv, hj⟩
        have : i ≠ k := by rintro rfl; simp [h0] at hv
        exact ⟨by omega, by omega, hv, fun j h1 h2 => hj j (by omega) h2⟩

/-- A sequence just written reads back whole. -/
theorem Memory.readSeq_writeSeq (m : Memory) (i : Nat) (bs : List Byte) :
    (m.writeSeq i bs).readSeq i bs.length = .ok bs := by
  rw [Memory.readSeq_ok_iff]
  refine ⟨rfl, fun j hj => ?_⟩
  rw [Memory.read_writeSeq, if_pos (by omega)]
  congr 1; omega

/-- Every index written makes the read succeed. -/
theorem Memory.readSeq_of_written (m : Memory) (i n : Nat)
    (h : ∀ j, i ≤ j → j < i + n → (m.read j).isSome = true) : ∃ bs, m.readSeq i n = .ok bs ∧ bs.length = n := by
  cases hr : m.readSeq i n with
  | ok bs => exact ⟨bs, rfl, ((Memory.readSeq_ok_iff m i n bs).1 hr).1⟩
  | error k =>
    obtain ⟨h1, h2, h3, _⟩ := (Memory.readSeq_error_iff m i n k).1 hr
    have := h k h1 h2
    simp [h3] at this

end Sys2Proof.Machine
end

