-- ==== Sys2Proof/Laws/Decoder.lean ====
section
/-! SUPPORT. The decoder's loop, said once: what one field can do, and what the whole loop answers
(spec/42_decoder.md R140, R145). -/

namespace Sys2Proof.Machine

/-- A catalog's span splits at its first entry. -/
@[simp] theorem lutSpan_cons (e : LutWord) (es : List LutWord) : lutSpan (e :: es) = lutWidth e + lutSpan es := by
  simp [lutSpan]

@[simp] theorem lutSpan_nil : lutSpan [] = 0 := rfl

/-- A field's content fails exactly when it is a text field with a byte of 0x80 or above (R153). -/
theorem fieldSlot_invalidByte_iff (e : LutWord) (bs : List Byte) :
    fieldSlot e bs = .error .invalidByte ↔ fieldKind (lutKind e) = some .text ∧ bs.any invalidText = true := by
  unfold fieldSlot
  cases fieldKind (lutKind e) with
  | none => simp
  | some kind => cases kind <;> simp

/-- A field's slot: the span lies within the response, the entry is legal, its bytes are there, and they make the slot. -/
theorem decodeField_ok {m : Memory} {len cur k : Nat} {e : LutWord} {r : Slot}
    (h : decodeField m len cur k e = .ok r) :
    cur + lutWidth e ≤ len ∧ entryLegal e = true ∧ ∃ bs, m.readSeq cur (lutWidth e) = .ok bs ∧ fieldSlot e bs = .ok r := by
  unfold decodeField at h
  split at h
  · cases h
  · split at h
    · next hle hlegal =>
      split at h
      · cases h
      · next bs hbs =>
        split at h
        · cases h
        · cases h
        · next r' hr => cases h; exact ⟨by omega, hlegal, bs, hbs, hr⟩
    · cases h

/-- A field that raises: its span is past the end, or a text byte is invalid; the index is its own. -/
theorem decodeField_raised {m : Memory} {len cur k j : Nat} {e : LutWord} {err : Err}
    (h : decodeField m len cur k e = .error (.raised err j)) :
    j = k ∧ ((err = .truncatedFrame ∧ len < cur + lutWidth e) ∨
      (err = .encodingError ∧ cur + lutWidth e ≤ len ∧
        ∃ bs, m.readSeq cur (lutWidth e) = .ok bs ∧ fieldSlot e bs = .error .invalidByte)) := by
  unfold decodeField at h
  split at h
  · next hlt => cases h; exact ⟨rfl, .inl ⟨rfl, hlt⟩⟩
  · split at h
    · next hle _ =>
      split at h
      · cases h
      · next bs hbs =>
        split at h
        · next hb => cases h; exact ⟨rfl, .inr ⟨rfl, by omega, bs, hbs, hb⟩⟩
        · cases h
        · cases h
    · cases h

/-- A field that meets an unwritten byte: the byte lies in the field's span and holds no value. -/
theorem decodeField_unwritten {m : Memory} {len cur k i : Nat} {e : LutWord}
    (h : decodeField m len cur k e = .error (.unwritten i)) :
    cur + lutWidth e ≤ len ∧ m.readSeq cur (lutWidth e) = .error i := by
  unfold decodeField at h
  split at h
  · cases h
  · split at h
    · next hle _ =>
      split at h
      · next j hj => cases h; exact ⟨by omega, hj⟩
      · split at h <;> cases h
    · cases h

/-- The loop over one more entry succeeds exactly when the entry and the rest do. -/
theorem decodeFields_cons_ok {m : Memory} {len cur k : Nat} {e : LutWord} {es : List LutWord} {rs : List Slot}
    (h : decodeFields m len cur k (e :: es) = .ok rs) :
    ∃ r rest, rs = r :: rest ∧ decodeField m len cur k e = .ok r ∧
      decodeFields m len (cur + lutWidth e) (k + 1) es = .ok rest := by
  unfold decodeFields at h
  split at h
  · cases h
  · next r hr =>
    split at h
    · cases h
    · next rest hrest => cases h; exact ⟨r, rest, rfl, hr, hrest⟩

/-- The loop over one more entry stops where the entry stops, or where the rest stops. -/
theorem decodeFields_cons_error {m : Memory} {len cur k : Nat} {e : LutWord} {es : List LutWord} {stop : DecodeStop}
    (h : decodeFields m len cur k (e :: es) = .error stop) :
    decodeField m len cur k e = .error stop ∨
      ∃ r, decodeField m len cur k e = .ok r ∧ decodeFields m len (cur + lutWidth e) (k + 1) es = .error stop := by
  unfold decodeFields at h
  split at h
  · next hs => cases h; exact .inl hs
  · next r hr =>
    split at h
    · next hs => cases h; exact .inr ⟨r, hr, hs⟩
    · cases h

/-- A successful loop gives one slot for each entry, in order. -/
theorem decodeFields_length {m : Memory} {len cur k : Nat} {es : List LutWord} {rs : List Slot}
    (h : decodeFields m len cur k es = .ok rs) : rs.length = es.length := by
  induction es generalizing cur k rs with
  | nil => cases h; rfl
  | cons e es ih =>
    obtain ⟨r, rest, rfl, _, hrest⟩ := decodeFields_cons_ok h
    simp [ih hrest]

/-- A successful loop's response covers the whole span. -/
theorem decodeFields_span {m : Memory} {len cur k : Nat} {es : List LutWord} {rs : List Slot}
    (hc : cur ≤ len) (h : decodeFields m len cur k es = .ok rs) : cur + lutSpan es ≤ len := by
  induction es generalizing cur k rs with
  | nil => simpa using hc
  | cons e es ih =>
    obtain ⟨r, rest, rfl, hr, hrest⟩ := decodeFields_cons_ok h
    have := ih (decodeField_ok hr).1 hrest
    simp only [lutSpan_cons]; omega

/-- Where the loop stops: at one entry, with that entry's own stop at its own cursor, every entry before it passing. -/
theorem decodeFields_error {m : Memory} {len cur k : Nat} {es : List LutWord} {stop : DecodeStop}
    (h : decodeFields m len cur k es = .error stop) :
    ∃ i e, es[i]? = some e ∧ decodeField m len (cur + lutSpan (es.take i)) (k + i) e = .error stop ∧
      ∀ j d, j < i → es[j]? = some d → ∃ r, decodeField m len (cur + lutSpan (es.take j)) (k + j) d = .ok r := by
  induction es generalizing cur k with
  | nil => cases h
  | cons e es ih =>
    rcases decodeFields_cons_error h with h1 | ⟨r, hr, h1⟩
    · exact ⟨0, e, rfl, by simpa using h1, fun j d hj => absurd hj (Nat.not_lt_zero j)⟩
    · obtain ⟨i, d, hd, hstop, hbefore⟩ := ih h1
      refine ⟨i + 1, d, hd, ?_, fun j d' hj hd' => ?_⟩
      · rw [List.take_succ_cons, lutSpan_cons, ← Nat.add_assoc, Nat.add_comm i, ← Nat.add_assoc]; exact hstop
      · cases j with
        | zero => cases hd'; exact ⟨r, by simpa using hr⟩
        | succ j =>
          obtain ⟨r', hr'⟩ := hbefore j d' (by omega) hd'
          exact ⟨r', by rw [List.take_succ_cons, lutSpan_cons, ← Nat.add_assoc, Nat.add_comm j, ← Nat.add_assoc]; exact hr'⟩

/-- The loop raises only the two field errors, at the index of an entry still to come. -/
theorem decodeFields_raised {m : Memory} {len cur k j : Nat} {es : List LutWord} {err : Err}
    (h : decodeFields m len cur k es = .error (.raised err j)) :
    (err = .truncatedFrame ∨ err = .encodingError) ∧ k ≤ j ∧ j < k + es.length := by
  induction es generalizing cur k with
  | nil => cases h
  | cons e es ih =>
    rcases decodeFields_cons_error h with h1 | ⟨r, _, h1⟩
    · obtain ⟨rfl, h2⟩ := decodeField_raised h1
      exact ⟨h2.imp (·.1) (·.1), le_refl _, by simp⟩
    · obtain ⟨h2, h3, h4⟩ := ih h1
      exact ⟨h2, by omega, by simp only [List.length_cons]; omega⟩

/-- An unwritten byte the loop meets holds no value and lies in the span of the entries to come. -/
theorem decodeFields_unwritten {m : Memory} {len cur k i : Nat} {es : List LutWord}
    (h : decodeFields m len cur k es = .error (.unwritten i)) :
    m.read i = none ∧ cur ≤ i ∧ i < cur + lutSpan es ∧ i < len := by
  induction es generalizing cur k with
  | nil => cases h
  | cons e es ih =>
    simp only [lutSpan_cons]
    rcases decodeFields_cons_error h with h1 | ⟨r, _, h1⟩
    · obtain ⟨h2, h3⟩ := decodeField_unwritten h1
      obtain ⟨h4, h5, h6, _⟩ := (Memory.readSeq_error_iff _ _ _ _).1 h3
      exact ⟨h6, h4, by omega, by omega⟩
    · obtain ⟨h2, h3, h4, h5⟩ := ih h1
      exact ⟨h2, by omega, by omega, h5⟩

end Sys2Proof.Machine
end

