-- ==== Sys2Proof/Laws/Exec.lean ====
section
/-! SUPPORT. Each meaning's inversion, said once: if it answers, then one of these cases holds. Provers cite these and do not
unfold the meanings. -/

namespace Sys2Proof.Machine

/-- `CRC_COMPUTE`'s next states (R105). -/
theorem execCrcCompute_next {n : Word16} {s t : State} (h : execCrcCompute n s = .next t) :
    (s.config.ibufSize < n.toNat ∧ t = s.raise .preconditionViolation 0) ∨
    (n.toNat ≤ s.config.ibufSize ∧ ∃ bs, readOperand s n = .ok bs ∧ t = { s with crc := crc16 bs }.complete) := by
  unfold execCrcCompute at h
  split at h
  · next hlt => cases h; exact .inl ⟨hlt, rfl⟩
  · next hle =>
    split at h
    · cases h
    · next bs hbs => cases h; exact .inr ⟨by omega, bs, hbs, rfl⟩

/-- `BUILD_QUERY`'s next states (R121). -/
theorem execBuildQuery_next {addr cmd sub : Byte} {n : Word16} {s t : State}
    (h : execBuildQuery addr cmd sub n s = .next t) :
    (maxPayload < n.toNat ∧ t = { s with olen := 0 }.raise .preconditionViolation 0) ∨
    (n.toNat ≤ maxPayload ∧ ∃ p, readOperand s n = .ok p ∧
      t = { s with
        obuf := s.obuf.writeSeq 0 (pack addr cmd sub p)
        olen := BitVec.ofNat 16 (n.toNat + frameOverhead)
        crc := crc16 (packBody addr cmd sub p) }.complete) := by
  unfold execBuildQuery at h
  split at h
  · next hlt => cases h; exact .inl ⟨hlt, rfl⟩
  · next hle =>
    split at h
    · cases h
    · next p hp => cases h; exact .inr ⟨by omega, p, hp, rfl⟩

/-- `DECODE`'s next states (R140). -/
theorem execDecode_next {n : Word16} {s t : State} (h : execDecode n s = .next t) :
    (s.config.ibufSize < n.toNat ∧ t = (s.setValid false).raise .preconditionViolation 0) ∨
    (n.toNat < respMinLen ∧ t = (s.setValid false).raise .shortResponse 0) ∨
    (∃ e k, decodeFields s.ibuf n.toNat respHeader 0 s.config.lut = .error (.raised e k) ∧
      t = (s.setValid false).raise e (BitVec.ofNat 8 k)) ∨
    (∃ rs, decodeFields s.ibuf n.toNat respHeader 0 s.config.lut = .ok rs ∧ n.toNat ≤ s.config.ibufSize ∧
      respMinLen ≤ n.toNat ∧ t = ({ s with result := rs }.setValid true).complete) := by
  unfold execDecode at h
  split at h
  · next hlt => cases h; exact .inl ⟨hlt, rfl⟩
  · next hle =>
    split at h
    · next hshort => cases h; exact .inr (.inl ⟨hshort, rfl⟩)
    · next hlong =>
      split at h
      · next e k hstop => cases h; exact .inr (.inr (.inl ⟨e, k, hstop, rfl⟩))
      · cases h
      · cases h
      · next rs hrs => cases h; exact .inr (.inr (.inr ⟨rs, hrs, by omega, by omega, rfl⟩))

/-- The frame's length (R90, R91). -/
theorem pack_length (addr cmd sub : Byte) (p : List Byte) : (pack addr cmd sub p).length = p.length + frameOverhead := by
  simp [pack, packBody, frameOverhead]

theorem packBody_length (addr cmd sub : Byte) (p : List Byte) : (packBody addr cmd sub p).length = p.length + 5 := by
  simp [packBody]

/-- The operand sequence read is the sequence `IBUF` holds from index 0 (R72). -/
theorem readOperand_ok_iff (s : State) (n : Word16) (bs : List Byte) :
    readOperand s n = .ok bs ↔ bs.length = n.toNat ∧ ∀ j, j < n.toNat → s.ibuf.read j = bs[j]? := by
  unfold readOperand
  rw [Memory.readSeq_ok_iff]
  simp only [Nat.zero_add]

end Sys2Proof.Machine
end

