-- ==== Sys2Proof/Laws/Moves.lean ====
section
/-! SUPPORT. The host's moves, said once: the next state of each, and where a step goes. -/

namespace Sys2Proof.Machine

@[simp] theorem step_idle {s : State} (h : s.moves = []) : step s = .next s := by simp [step, h]

/-- A step makes the host's next move on the state without it. -/
theorem step_move {s : State} {m : HostMove} {ms : List HostMove} (h : s.moves = m :: ms) :
    step s = hostMove m { s with moves := ms } := by simp [step, h]

@[simp] theorem runMoves_nil (s : State) : runMoves [] s = .next s := rfl

/-- Moves made one after another, the first one apart. -/
theorem runMoves_cons_next {m : HostMove} {ms : List HostMove} {s u : State} (h : runMoves (m :: ms) s = .next u) :
    ∃ t, hostMove m s = .next t ∧ runMoves ms t = .next u := by
  unfold runMoves at h
  split at h
  · next t ht => exact ⟨t, ht, h⟩
  · cases h
  · cases h

/-- An issue's next states (R20, R73). -/
theorem hostIssue_next {w : CmdWord} {s t : State} (h : hostIssue w s = .next t) :
    (∃ i, decodeCmd w = .ok i ∧ exec i s = .next t) ∨
    ((∃ e, decodeCmd w = .error e) ∧ t = s.raise .illegalCommand 0) := by
  unfold hostIssue at h
  split at h
  · next i hi => exact .inl ⟨i, hi, h⟩
  · next e he => cases h; exact .inr ⟨⟨e, he⟩, rfl⟩

/-- A register read's next state (R51). -/
theorem hostReadReg_next {n : Nat} {s t : State} (h : hostReadReg n s = .next t) :
    ∃ v, readReg s n = some v ∧ t = s.reply (.reg v) := by
  unfold hostReadReg at h
  split at h
  · cases h
  · next v hv =>
    split at h
    · cases h
    · cases h; exact ⟨v, hv, rfl⟩

/-- An `IBUF` write's next state (R52). -/
theorem hostWriteIbuf_next {i : Nat} {b : Byte} {s t : State} (h : hostWriteIbuf i b s = .next t) :
    i < s.config.ibufSize ∧ t = { s with ibuf := s.ibuf.write i b } := by
  unfold hostWriteIbuf at h
  split at h
  · next hi => cases h; exact ⟨hi, rfl⟩
  · cases h

/-- An `OBUF` read's next state (R53). -/
theorem hostReadObuf_next {i : Nat} {s t : State} (h : hostReadObuf i s = .next t) :
    i < s.olen.toNat ∧ ∃ b, s.obuf.read i = some b ∧ t = s.reply (.byte b) := by
  unfold hostReadObuf at h
  split at h
  · next hi =>
    split at h
    · next b hb => cases h; exact ⟨hi, b, hb, rfl⟩
    · cases h
  · cases h

/-- A `RESULT` read's next state (R54). -/
theorem hostReadResult_next {k : Nat} {s t : State} (h : hostReadResult k s = .next t) :
    k < s.config.nFields ∧ s.status.valid = true ∧ ∃ r, s.result[k]? = some r ∧ t = s.reply (.slot r) := by
  unfold hostReadResult at h
  split at h
  · next hk =>
    split at h
    · next r hr => cases h; exact ⟨hk.1, hk.2, r, hr, rfl⟩
    · cases h
  · cases h

/-- An `OBUF` read below `OLEN` returns the byte there (R53). -/
theorem hostReadObuf_returns {i : Nat} {b : Byte} {s : State} (hi : i < s.olen.toNat) (hb : s.obuf.read i = some b) :
    hostReadObuf i s = .next (s.reply (.byte b)) := by simp [hostReadObuf, hi, hb]

/-- A `RESULT` read while `VALID` is 1 returns the slot (R54). -/
theorem hostReadResult_returns {k : Nat} {r : Slot} {s : State} (hk : k < s.config.nFields)
    (hv : s.status.valid = true) (hr : s.result[k]? = some r) : hostReadResult k s = .next (s.reply (.slot r)) := by
  simp [hostReadResult, hk, hv, hr]

end Sys2Proof.Machine
end

