-- ==== Sys2Proof/Laws/PerInstr.lean ====
section
/-! SUPPORT. A statement about every operation as syntax, one lemma for each constructor: its word carries its operation code,
and the fields R71 marks "must be 0" are 0. -/

namespace Sys2Proof.Laws.ZeroFields

/-- The fields of `w` that R71 marks "must be 0" for the operation are 0, and `OPC` is the operation's. -/
def fieldsAsTable (i : Instr) (w : CmdWord) : Prop :=
  match i with
  | .crcInit => cmdOpc w = 0x01 ∧ cmdP0 w = 0 ∧ cmdP1 w = 0 ∧ cmdP2 w = 0 ∧ cmdLen w = 0
  | .crcFeed b => cmdOpc w = 0x02 ∧ cmdP0 w = b ∧ cmdP1 w = 0 ∧ cmdP2 w = 0 ∧ cmdLen w = 0
  | .crcCompute n => cmdOpc w = 0x03 ∧ cmdP0 w = 0 ∧ cmdP1 w = 0 ∧ cmdP2 w = 0 ∧ cmdLen w = n
  | .buildQuery addr cmd sub n =>
    cmdOpc w = 0x10 ∧ cmdP0 w = addr ∧ cmdP1 w = cmd ∧ cmdP2 w = sub ∧ cmdLen w = n
  | .decode n => cmdOpc w = 0x20 ∧ cmdP0 w = 0 ∧ cmdP1 w = 0 ∧ cmdP2 w = 0 ∧ cmdLen w = n

/-- The word of `i` has the fields of `i`'s row of R71. -/
def Statement (i : Instr) : Prop := fieldsAsTable i (encodeCmd i)

/-- All five fields of a packed word at once. -/
theorem packed_fields (opc p0 p1 p2 : Byte) (len : Word16) :
    cmdOpc (packCmd opc p0 p1 p2 len) = opc ∧ cmdP0 (packCmd opc p0 p1 p2 len) = p0 ∧
      cmdP1 (packCmd opc p0 p1 p2 len) = p1 ∧ cmdP2 (packCmd opc p0 p1 p2 len) = p2 ∧
      cmdLen (packCmd opc p0 p1 p2 len) = len :=
  ⟨cmdOpc_packCmd .., cmdP0_packCmd .., cmdP1_packCmd .., cmdP2_packCmd .., cmdLen_packCmd ..⟩

theorem crcInit : Statement .crcInit := packed_fields 0x01 0 0 0 0
theorem crcFeed (b : Byte) : Statement (.crcFeed b) := packed_fields 0x02 b 0 0 0
theorem crcCompute (n : Word16) : Statement (.crcCompute n) := packed_fields 0x03 0 0 0 n
theorem buildQuery (addr cmd sub : Byte) (n : Word16) : Statement (.buildQuery addr cmd sub n) :=
  packed_fields 0x10 addr cmd sub n
theorem decode (n : Word16) : Statement (.decode n) := packed_fields 0x20 0 0 0 n

end Sys2Proof.Laws.ZeroFields
end

