-- ==== Sys2Proof/Tests/Slice0.lean ====
section
/-! SUPPORT. Tests with results taken from spec/95_test_vectors.md, the catalog checks' ill-formed terms, and one witness for the
hypotheses of each statement. -/

namespace Sys2Proof.Tests

open Sys2Proof.Machine

/-! ## Small states -/

/-- After reset, under the example catalog. -/
def exState : State := State.afterReset Config.ofEX

/-- The same with `IBUF[0..)` holding `bs`. -/
def loaded (bs : List Byte) : State := { exState with ibuf := Memory.writeSeq [] 0 bs }

/-- Response R0 of §2.3, header and fields. -/
def header : List Byte := [0x02, 0x06, 0x01, 0x2C, 0x60, 0x01]
def partNumber : List Byte := [0x41, 0x42, 0x43, 0x2D, 0x31, 0x32, 0x33, 0x20, 0x20, 0x20, 0x20]
def serialNumber : List Byte := [0x53, 0x4E, 0x30, 0x30, 0x30, 0x31, 0, 0, 0, 0, 0, 0, 0, 0, 0, 0, 0, 0]
def numbers : List Byte := [0x00, 0x64, 0x13, 0x88, 0x00, 0x01, 0x86, 0xA0, 0x05, 0xDE, 0xAD, 0xBE, 0xEF]
def r0 : List Byte := header ++ partNumber ++ serialNumber ++ numbers

/-- R0 with byte 20, inside field 1, not ASCII (V-DEC-08). -/
def r0Bad : List Byte := r0.set 20 0xC3

/-- A property of the next state, false of a fault or a refusal. -/
def after (o : Host.Outcome State Fault Refusal) (p : State → Bool) : Bool :=
  match o with
  | .next t => p t
  | .fault _ => false
  | .refused _ => false

/-- The next state, or `exState` where there is none. -/
def nextOf (o : Host.Outcome State Fault Refusal) : State :=
  match o with
  | .next t => t
  | .fault _ => exState
  | .refused _ => exState

/-- An outcome with a next state is that next state. -/
theorem eq_nextOf {o : Host.Outcome State Fault Refusal} (h : after o (fun _ => true) = true) : o = .next (nextOf o) := by
  cases o with
  | next t => rfl
  | fault f => cases h
  | refused r => cases h

/-- A well-formed configuration of one field (its unit string is the test's own), and a state with its reading. -/
def oneField : Config := ⟨[⟨packLut 1 0 2 2 true, "AC Power", "W"⟩], 512⟩
def oneReading : State :=
  { State.afterReset oneField with
    status := ⟨0, true, 0⟩
    result := [numericSlot (packLut 1 0 2 2 true) 100] }

/-- The state after the status query (V-FRM-01). -/
def frameState : State := nextOf (exec (queryStatus 1) exState)

/-! ## Decoding: words written out from R70 and R71 -/

theorem test_decode_crcInit : decodeCmd 0x000000000001 = .ok .crcInit := by decide
theorem test_decode_crcFeed : decodeCmd 0x000000000502 = .ok (.crcFeed 0x05) := by decide
theorem test_decode_crcCompute : decodeCmd 0x020100000003 = .ok (.crcCompute 513) := by decide
theorem test_decode_buildQuery : decodeCmd 0x00FD01600110 = .ok (.buildQuery 1 0x60 0x01 253) := by decide
theorem test_decode_decode : decodeCmd 0x003000000020 = .ok (.decode 48) := by decide
theorem test_decode_opcode_refused : decodeCmd 0x000000000004 = .error (.unknownOpcode 4) := by decide
theorem test_decode_crcInit_p0_refused : decodeCmd 0x000000000101 = .error (.nonzeroField 1) := by decide
theorem test_decode_crcFeed_len_refused : decodeCmd 0x000100000502 = .error (.nonzeroField 2) := by decide
theorem test_decode_crcCompute_p2_refused : decodeCmd 0x000101000003 = .error (.nonzeroField 3) := by decide
theorem test_decode_decode_p1_refused : decodeCmd 0x003000010020 = .error (.nonzeroField 0x20) := by decide
theorem test_encode_buildQuery : encodeCmd (.buildQuery 1 0x60 0x01 254) = 0x00FE01600110 := by decide
theorem test_tableWord : decodeTableWord 48 0x00FE01600110 = some (.buildQuery 1 0x60 0x01 254) := by decide

/-! ## The LUT words of catalog EX (§2.3) -/

theorem test_lutWords :
    exampleCatalog.map (·.word) = [0x0165, 0x0245, 0x2841, 0x0853, 0x0C8C, 0x1820, 0x0C82] := by decide
theorem test_offsets : (List.range 7).map (fieldOffset Config.ofEX.lut) = [6, 17, 35, 37, 39, 43, 44] := by decide

/-! ## Catalog checks: V-LUT-01 to V-LUT-10, one ill-formed term for each check -/

/-- EX with entry `k`'s word replaced. -/
def exWith (k : Nat) (w : LutWord) : Config :=
  { Config.ofEX with catalog := exampleCatalog.modify k fun e => { e with word := w } }

/-- `n` text fields of width 18 under distinct names, the first one primary (V-LUT-09). -/
def textFields (n : Nat) : Config :=
  ⟨(List.range n).map fun k => ⟨packLut 5 0 18 0 (k == 0), String.ofList (List.replicate k 'x'), ""⟩, 512⟩

theorem test_lut_ex : Config.ofEX.wf = true := by decide
theorem test_lut_count_empty : checkCount ⟨[], 512⟩ = false := by decide
theorem test_lut_entry_fixed16_scale0 : checkEntries (exWith 3 0x0843) = false := by decide
theorem test_lut_entry_uint16_scale2 : checkEntries (exWith 3 0x0851) = false := by decide
theorem test_lut_entry_text_width12 : checkEntries (exWith 0 (packLut 5 0 12 0 false)) = false := by decide
theorem test_lut_entry_kind6 : checkEntries (exWith 5 (packLut 6 0 1 6 false)) = false := by decide
theorem test_lut_category7 : checkCategories (exWith 5 (packLut 0 0 1 7 false)) = false := by decide
theorem test_lut_reserved14 : checkCategories (exWith 5 (packLut 0 0 1 6 false ||| 0x4000)) = false := by decide
theorem test_lut_no_primary : checkPrimary (exWith 2 (packLut 1 0 2 2 false)) = false := by decide
theorem test_lut_two_primaries : checkPrimary (exWith 3 (packLut 3 2 2 2 true)) = false := by decide
theorem test_lut_span_29 : checkSpan (textFields 29) = false := by decide
theorem test_lut_span_28 : checkSpan (textFields 28) = true := by decide
theorem test_lut_names_equal :
    checkNames { Config.ofEX with catalog := exampleCatalog ++ exampleCatalog } = false := by decide
theorem test_lut_ibufSize_small : checkIbufSize { Config.ofEX with ibufSize := 257 } = false := by decide
theorem test_lut_configure_refuses : configure (exWith 3 0x0843) = .refused .illFormedCatalog := rfl

/-! ## Operations: the vectors of §2 and §3 -/

/-- R103's example: CRC = 0xFC85, then `CRC_INIT`. -/
theorem test_crcInit :
    after (exec .crcInit { exState with crc := 0xFC85 }) (fun t => t.crc == 0 && t.status == ⟨0, false, 0⟩) = true := by
  decide
/-- V-CRC-22: 0x03C0 fed with 0x01. -/
theorem test_crcFeed :
    after (exec (.crcFeed 0x01) { exState with crc := 0x03C0 }) (fun t => t.crc == 0x90C2) = true := by decide
/-- V-CRC-16. -/
theorem test_crcByte : crcByte 0x1234 0x56 = 0xE993 := by decide
/-- V-CRC-30: "123456789". -/
theorem test_crcCompute :
    after (exec (.crcCompute 9) (loaded [0x31, 0x32, 0x33, 0x34, 0x35, 0x36, 0x37, 0x38, 0x39]))
      (fun t => t.crc == 0xBB3D && t.status.err == 0) = true := by decide +kernel
/-- V-CRC-34: `IBUF` never written. -/
theorem test_crcCompute_unwritten : exec (.crcCompute 1) exState = .fault (.unwrittenRead 0) := rfl
/-- V-FRM-06: marker values in the payload are not escaped. -/
theorem test_buildQuery :
    after (exec (.buildQuery 1 0x60 0x01 3) (loaded [0x02, 0x03, 0x05])) (fun t => t.olen == 12 && t.crc == 0x6D30 &&
      decide (t.obuf = Memory.writeSeq [] 0 [0x02, 0x05, 0x01, 0x05, 0x60, 0x01, 0x02, 0x03, 0x05, 0x30, 0x6D, 0x03]))
      = true := by decide +kernel
/-- V-FRM-10: `N` = 254. -/
theorem test_buildQuery_254 :
    after (exec (.buildQuery 1 0x60 0x01 254) { exState with crc := 0x66E2, olen := 262 })
      (fun t => t.olen == 0 && t.crc == 0x66E2 && statusWord t.status == 0x0005) = true := by decide
/-- V-DEC-01: the values of the reading. -/
theorem test_decode_reading :
    after (exec (.decode 48) (loaded r0)) (fun t => statusWord t.status == 0x0010 &&
      decide (t.result.map slotValue = [.text [0x41, 0x42, 0x43, 0x2D, 0x31, 0x32, 0x33],
        .text [0x53, 0x4E, 0x30, 0x30, 0x30, 0x31], .number 100, .number 50, .number 10000, .number 5,
        .number 3735928559])) = true := by decide +kernel
/-- V-DEC-09: an invalid byte in field 1 wins over the truncation of field 4. -/
theorem test_decode_priority :
    after (exec (.decode 40) (loaded r0Bad)) (fun t => statusWord t.status == 0x0104) = true := by decide +kernel
/-- V-DEC-06. -/
theorem test_decode_truncated :
    after (exec (.decode 47) (loaded r0)) (fun t => statusWord t.status == 0x0602) = true := by decide +kernel
/-- V-DEC-12: leading and inner bytes of the trim set are kept. -/
theorem test_text_trim :
    slotValue (textSlot (packLut 5 0 11 0 false) [0x20, 0x41, 0x20, 0x42, 0x00, 0x43, 0x20, 0x09, 0x00, 0x20, 0x20]) =
      .text [0x20, 0x41, 0x20, 0x42, 0x00, 0x43] := by decide
/-- V-DEC-17: an illegal DECODE word keeps VALID. -/
theorem test_illegal_keeps_valid :
    after (hostMove (.issue 0x003000010020) oneReading) (fun t => statusWord t.status == 0x0016) = true := by decide
/-- From `State.reset`, the word of `CRC_FEED 0x05` placed as the next move runs in the next step (V-CRC-35). -/
theorem test_fetch_runs :
    after (step (State.reset.withFetchWord 48 0x0502)) (fun t => t.crc == 0x03C0) = true := by decide
/-- Moves: a byte written can be read back by an operation only; a read of `OLEN` after the status query. -/
theorem test_readOlen : after (hostMove (.readReg 2) frameState) (fun t => t.replies == [.reg 9]) = true := by
  decide +kernel
/-- P1: the last byte of the status query, and one past it. -/
theorem test_readObuf_last : after (hostMove (.readObuf 8) frameState) (fun t => t.replies == [.byte 0x03]) = true := by
  decide +kernel
theorem test_readObuf_past : hostMove (.readObuf 9) frameState = .fault (.noMoveReadObuf 9) := by
  simp only [hostMove, hostReadObuf, if_neg (show ¬9 < frameState.olen.toNat by decide +kernel)]
/-- R76: the lines of a command sequence. -/
theorem test_asm : asmMoves (.queryStatus 1) = [.issue 0x000001600110] ∧
    asmMoves (.crcSeq [0x05]) = [.issue 0x000000000001, .issue 0x000000000502] ∧
    asmMoves (.loadIbuf [0xAA, 0xBB]) = [.writeIbuf 0 0xAA, .writeIbuf 1 0xBB] := by decide
/-- R109: the shipped catalog's facts hold of no catalog without eleven final flags. -/
theorem test_shippedFacts : shippedFacts exampleCatalog = false ∧ hasAcPower exampleCatalog = true := by decide

/-! ## Witnesses: a concrete input that meets the hypotheses of each statement -/

/-- `loaded bs` holds `bs`. -/
theorem loaded_holds (bs : List Byte) : (loaded bs).holds bs := by
  intro i hi
  show (Memory.writeSeq [] 0 bs).read i = bs[i]?
  rw [Memory.read_writeSeq, if_pos (by omega), Nat.sub_zero]

theorem witness_EncodeDecodeRoundTrip : decodeCmd 0x006002 = .ok (.crcFeed 0x60) := by decide
theorem witness_IllegalWordRaises_a : illegalWord 0x000000000004 := by unfold illegalWord; decide
theorem witness_IllegalWordRaises_crcInit : illegalWord 0x000000000101 := by unfold illegalWord; decide
theorem witness_IllegalWordRaises_crcFeed : illegalWord 0x000100000502 := by unfold illegalWord; decide
theorem witness_IllegalWordRaises_crcCompute : illegalWord 0x000101000003 := by unfold illegalWord; decide
theorem witness_IllegalWordRaises_decode : illegalWord 0x003000000120 := by unfold illegalWord; decide
theorem witness_StepRunsIssuedWord :
    (exState.withFetchWord 48 0x1).moves = .issue 0x000000000001 :: [] ∧ decodeCmd 0x000000000001 = .ok .crcInit := by
  decide
theorem witness_IdleStepKeepsState : exState.moves = [] := rfl
theorem witness_CrcLinear : ([0x05, 0x01] : List Byte).length = ([0xFF, 0x02] : List Byte).length := rfl
theorem witness_CrcInitResult :
    (0x000000000101 : CmdWord).extractLsb' 0 8 = 0x01#8 ∧ (0x000000000101 : CmdWord) ≠ 0x000000000001 := by decide
/-- Also for `CrcSeqEqualsCompute`; `n` = 0 reads no byte and `n` = IBUF_SIZE is the upper bound. -/
theorem witness_CrcComputeCompletes :
    (5 : Word16).toNat ≤ (loaded [5, 1, 2, 0x60, 1]).config.ibufSize ∧ ([5, 1, 2, 0x60, 1] : List Byte).length = (5 : Word16).toNat ∧
      (loaded [5, 1, 2, 0x60, 1]).holds [5, 1, 2, 0x60, 1] := ⟨by decide, by decide, loaded_holds _⟩
theorem witness_CrcComputeCompletes_empty :
    (0 : Word16).toNat ≤ exState.config.ibufSize ∧ ([] : List Byte).length = (0 : Word16).toNat ∧ exState.holds [] :=
  ⟨by decide, by decide, fun i hi => absurd hi (Nat.not_lt_zero i)⟩
theorem witness_CrcComputeCompletes_full :
    (512 : Word16).toNat ≤ (loaded (List.replicate 512 0)).config.ibufSize ∧
      (List.replicate 512 (0 : Byte)).length = (512 : Word16).toNat ∧
      (loaded (List.replicate 512 0)).holds (List.replicate 512 0) :=
  ⟨by decide, by rw [List.length_replicate]; rfl, loaded_holds _⟩
theorem witness_CrcComputeTooLong : exState.config.ibufSize < (513 : Word16).toNat := by decide
theorem witness_UnwrittenOperandFaults :
    1 < (2 : Word16).toNat ∧ (loaded [0x05]).writtenRange 0 1 ∧ (loaded [0x05]).ibuf.read 1 = none ∧
      (2 : Word16).toNat ≤ (loaded [0x05]).config.ibufSize ∧ (2 : Word16).toNat ≤ 253 := by
  refine ⟨by decide, ?_, by decide, by decide, by decide⟩
  intro i h0 h1
  obtain rfl : i = 0 := by omega
  decide
theorem witness_FrameLayout : ([0xAA] : List Byte).length ≤ 253 ∧ (List.replicate 253 (0 : Byte)).length ≤ 253 := by
  rw [List.length_replicate]; decide
theorem witness_BuildQueryCompletes :
    (1 : Word16).toNat ≤ 253 ∧ ([0xAA] : List Byte).length = (1 : Word16).toNat ∧ (loaded [0xAA]).holds [0xAA] :=
  ⟨by decide, by decide, loaded_holds _⟩
theorem witness_BuildQueryCompletes_largest :
    (253 : Word16).toNat ≤ 253 ∧ (List.replicate 253 (0 : Byte)).length = (253 : Word16).toNat ∧
      (loaded (List.replicate 253 0)).holds (List.replicate 253 0) :=
  ⟨by decide, by rw [List.length_replicate]; rfl, loaded_holds _⟩
theorem witness_BuildQueryTooLong : 253 < (254 : Word16).toNat ∧ (0 : Word16).toNat ≤ 253 ∧
    exec (queryStatus 1) exState = .next frameState := by
  exact ⟨by decide, by decide, eq_nextOf (by decide +kernel)⟩
theorem witness_BuildQueryCrcInFrame :
    exec (.buildQuery 1 0x60 0x01 0) exState = .next frameState ∧ frameState.status.err = 0 :=
  ⟨eq_nextOf (by decide +kernel), by decide +kernel⟩

/-- The condition of one field as a Bool, for the witnesses. -/
def fieldCheck (s : State) (len k : Nat) (e : LutWord) : Bool :=
  decide (fieldOffset s.config.lut k + lutWidth e ≤ len) &&
    match fieldBytes s k e with
    | .ok bs => fieldKind (lutKind e) != some .text || !bs.any invalidText
    | .error _ => false

theorem fieldGood_of_check {s : State} {len k : Nat} {e : LutWord} (h : fieldCheck s len k e = true) :
    fieldGood s len k e := by
  unfold fieldCheck at h
  obtain ⟨h1, h2⟩ := Bool.and_eq_true_iff.1 h
  split at h2
  · next bs hbs =>
    refine ⟨of_decide_eq_true h1, bs, hbs, fun hk => ?_⟩
    simpa [hk] using h2
  · cases h2

/-- Every entry below `m` passes the check. -/
def fieldsCheck (s : State) (len m : Nat) : Bool :=
  (List.range m).all fun k =>
    match s.config.lut[k]? with
    | some e => fieldCheck s len k e
    | none => true

theorem fieldGood_of_fieldsCheck {s : State} {len m : Nat} (h : fieldsCheck s len m = true) :
    ∀ k e, k < m → s.config.lut[k]? = some e → fieldGood s len k e := by
  intro k e hk he
  have := (List.all_eq_true.1 h) k (List.mem_range.2 hk)
  rw [he] at this
  exact fieldGood_of_check this

theorem witness_DecodeCompletes :
    (loaded r0).config.wf = true ∧ (48 : Word16).toNat ≤ (loaded r0).config.ibufSize ∧
      ∀ k e, (loaded r0).config.lut[k]? = some e → fieldGood (loaded r0) (48 : Word16).toNat k e := by
  refine ⟨by decide, by decide, fun k e he => ?_⟩
  have hk : k < 7 := (List.getElem?_eq_some_iff.1 he).1
  exact fieldGood_of_fieldsCheck (m := 7) (by decide +kernel) k e hk he
theorem witness_DecodeErrorPriority_short :
    (2 : Word16).toNat ≤ exState.config.ibufSize ∧ (2 : Word16).toNat < 3 := by decide
/-- The first field truncated at the least length the decoder reads fields of. -/
theorem witness_DecodeErrorPriority_first :
    exState.config.wf = true ∧ (3 : Word16).toNat ≤ exState.config.ibufSize ∧ 3 ≤ (3 : Word16).toNat ∧
      exState.config.lut[0]? = some 0x0165 ∧ fieldsGoodBefore exState (3 : Word16).toNat 0 ∧
      (3 : Word16).toNat < fieldOffset exState.config.lut 0 + lutWidth 0x0165 :=
  ⟨by decide, by decide, by decide, by decide, fun j e hj => absurd hj (Nat.not_lt_zero j), by decide⟩
theorem witness_DecodeErrorPriority_truncated :
    (loaded r0).config.wf = true ∧ (47 : Word16).toNat ≤ (loaded r0).config.ibufSize ∧ 3 ≤ (47 : Word16).toNat ∧
      (loaded r0).config.lut[6]? = some 0x0C82 ∧ fieldsGoodBefore (loaded r0) (47 : Word16).toNat 6 ∧
      (47 : Word16).toNat < fieldOffset (loaded r0).config.lut 6 + lutWidth 0x0C82 :=
  ⟨by decide, by decide, by decide, by decide,
    fun j e hj he => fieldGood_of_fieldsCheck (m := 6) (by decide +kernel) j e hj he, by decide⟩
theorem witness_DecodeErrorPriority_encoding :
    (loaded r0Bad).config.wf = true ∧ (40 : Word16).toNat ≤ (loaded r0Bad).config.ibufSize ∧ 3 ≤ (40 : Word16).toNat ∧
      (loaded r0Bad).config.lut[1]? = some 0x0245 ∧ fieldsGoodBefore (loaded r0Bad) (40 : Word16).toNat 1 ∧
      fieldOffset (loaded r0Bad).config.lut 1 + lutWidth 0x0245 ≤ (40 : Word16).toNat ∧
      fieldBytes (loaded r0Bad) 1 0x0245 = .ok (serialNumber.set 3 0xC3) ∧ fieldKind (lutKind 0x0245) = some .text ∧
      ∃ b ∈ serialNumber.set 3 0xC3, 0x80 ≤ b.toNat :=
  ⟨by decide, by decide, by decide, by decide,
    fun j e hj he => fieldGood_of_fieldsCheck (m := 1) (by decide +kernel) j e hj he, by decide, by decide +kernel,
    by decide, 0xC3, by decide, by decide⟩
/-- V-DEC-19: nothing written, the first field byte is index 6. -/
theorem witness_DecodeUnwrittenFaults :
    exState.config.wf = true ∧ (48 : Word16).toNat ≤ exState.config.ibufSize ∧ 3 ≤ (48 : Word16).toNat ∧
      exState.config.lut[0]? = some 0x0165 ∧ fieldsGoodBefore exState (48 : Word16).toNat 0 ∧
      fieldOffset exState.config.lut 0 + lutWidth 0x0165 ≤ (48 : Word16).toNat ∧ fieldOffset exState.config.lut 0 ≤ 6 ∧
      6 < fieldOffset exState.config.lut 0 + lutWidth 0x0165 ∧
      exState.writtenRange (fieldOffset exState.config.lut 0) 6 ∧ exState.ibuf.read 6 = none := by
  refine ⟨by decide, by decide, by decide, by decide, fun j e hj => absurd hj (Nat.not_lt_zero j), by decide, by decide,
    by decide, ?_, by decide⟩
  intro i h0 h1
  have : (6 : Nat) ≤ i := h0
  omega
/-- V-DEC-20: R0 with its header unwritten. -/
theorem witness_DecodeIgnoresHeaderAndTrailer :
    ∀ i, 6 ≤ i → i < 6 + lutSpan (loaded r0).config.lut →
      (Memory.writeSeq [] 6 (r0.drop 6)).read i = (loaded r0).ibuf.read i := by
  have h : ∀ i, i < 48 → 6 ≤ i → (Memory.writeSeq [] 6 (r0.drop 6)).read i = (loaded r0).ibuf.read i := by
    decide +kernel
  intro i h0 h1
  exact h i h1 h0
/-- Two states that agree on the configuration and `IBUF` and differ elsewhere. -/
theorem witness_DecodeIndependent :
    (loaded r0).config = { loaded r0 with crc := 1, olen := 9, status := ⟨5, true, 0⟩ }.config ∧
      (loaded r0).ibuf = { loaded r0 with crc := 1, olen := 9, status := ⟨5, true, 0⟩ }.ibuf := ⟨rfl, rfl⟩
theorem witness_ReadingIsComplete :
    exec (.decode 48) (loaded r0) = .next (nextOf (exec (.decode 48) (loaded r0))) ∧
      (nextOf (exec (.decode 48) (loaded r0))).status.err = 0 :=
  ⟨eq_nextOf (by decide +kernel), by decide +kernel⟩
theorem witness_NumericFieldsBigEndian :
    fieldKind (lutKind 0x1820) = some .uint8 ∧ fieldKind (lutKind 0x2841) = some .uint16be ∧
      fieldKind (lutKind 0x0853) = some .fixed16 ∧ fieldKind (lutKind 0x0C82) = some .uint32be ∧
      fieldKind (lutKind 0x0C8C) = some .fixed32 := by decide
theorem witness_TextFieldTrimmed :
    fieldKind (lutKind 0x0245) = some .text ∧ serialNumber.length ≤ 18 ∧ ∀ b ∈ serialNumber, b.toNat < 0x80 := by decide
theorem witness_ScaledValueExact : fieldKind (numericSlot 0x0853 5000).kind ≠ some .text := by decide
theorem witness_FieldsTile : Config.ofEX.lut[6]? = some 0x0C82 := by decide
/-- Every operation has a next state: for `OperationFrames`, `ErrorsPerOperation`, `ValidWriters`. -/
theorem witness_OperationFrames :
    after (exec .crcInit exState) (fun _ => true) = true ∧ after (exec (.crcFeed 5) exState) (fun _ => true) = true ∧
      after (exec (.crcCompute 0) exState) (fun _ => true) = true ∧
      after (exec (queryStatus 1) exState) (fun _ => true) = true ∧
      after (exec (.decode 2) exState) (fun _ => true) = true := by decide +kernel
/-- Every operation that can fail does: for `ErrorEffects`. -/
theorem witness_ErrorEffects :
    after (exec (.crcCompute 513) exState) (fun t => t.status.err != 0) = true ∧
      after (exec (.buildQuery 1 0x60 1 254) exState) (fun t => t.status.err != 0) = true ∧
      after (exec (.decode 2) oneReading) (fun t => t.status.err != 0) = true := by decide
/-- The two field errors, at fields 6 and 1: for the last clause on `DECODE` of `ErrorEffects`. -/
theorem witness_ErrorEffects_fields :
    after (exec (.decode 47) (loaded r0)) (fun t => t.status.err == 2 && t.status.errField == 6) = true ∧
      after (exec (.decode 40) (loaded r0Bad)) (fun t => t.status.err == 4 && t.status.errField == 1) = true := by
  decide +kernel
theorem witness_ErrorsPerOperation :
    (0x00FE01600110 : CmdWord).extractLsb' 0 8 = 0x10#8 ∧ exec (.crcCompute 1) exState = .fault (.unwrittenRead 0) ∧
      exState.config.wf = true := ⟨by decide, rfl, by decide⟩
theorem witness_ValidWriters :
    hostMove .reset oneReading = .next oneReading.resetCore ∧
      hostMove (.writeIbuf 0 5) oneReading = .next { oneReading with ibuf := [(0, 5)] } ∧
      after (hostMove (.issue 0x003000010020) oneReading) (fun t => t.status.valid) = true :=
  ⟨rfl, rfl, by decide⟩
theorem witness_CrcWriters :
    after (hostMove (.issue 0x0502) exState) (fun t => t.crc != exState.crc) = true ∧
      after (hostMove .reset { exState with crc := 1 }) (fun t => t.crc != 1) = true := by decide
theorem witness_ReadRegReturns : (∃ e, exState.status.err = errCode e) ∧ 5 ≤ 5 := ⟨⟨.ok, rfl⟩, le_refl _⟩
theorem witness_WriteIbufWrites : 511 < exState.config.ibufSize := by decide
theorem witness_ReadObufReturns : ObufInv frameState ∧ 8 < frameState.olen.toNat := by
  refine ⟨.inr ⟨1, 0x60, 0x01, [], by decide, by decide +kernel, ?_⟩, by decide +kernel⟩
  have h : ∀ i, i < 9 → frameState.obuf.read i = (pack 1 0x60 0x01 [])[i]? := by decide +kernel
  exact fun i hi => h i (lt_of_lt_of_eq hi (by decide +kernel))
theorem oneReading_fits : ResultInv oneReading := by
  intro _
  refine .cons ⟨rfl, rfl, rfl, ?_, ?_, ?_⟩ .nil
  · intro b hb
    exact (List.mem_replicate.1 (List.mem_of_mem_drop hb)).2
  · intro h
    exact absurd h (by decide)
  · intro _
    exact ⟨rfl, by decide⟩
theorem witness_ReadResultReturns :
    ResultInv oneReading ∧ 0 < oneReading.config.nFields ∧ oneReading.status.valid = true :=
  ⟨oneReading_fits, by decide, rfl⟩
theorem witness_ForbiddenMovesDoNotMove :
    exState.config.ibufSize ≤ 512 ∧ frameState.olen.toNat ≤ 9 ∧ exState.status.valid = false ∧
      oneReading.config.nFields ≤ 1 := by decide +kernel
theorem witness_ReadsHaveNoEffect :
    after (hostMove (.readReg 0) oneReading) (fun _ => true) = true ∧
      after (hostMove (.readObuf 0) frameState) (fun _ => true) = true ∧
      after (hostMove (.readResult 0) oneReading) (fun _ => true) = true ∧
      after (hostMove (.writeIbuf 511 0) exState) (fun _ => true) = true := by decide +kernel
/-- A read, an `IBUF` write and another read, then the first read again: it returns the same value. -/
theorem witness_ReadsHaveNoEffect_between :
    after (runMoves [.readReg 1, .writeIbuf 0 5, .readReg 0, .readReg 1] { exState with crc := 7 })
      (fun t => t.replies == [.reg 7, .reg 0, .reg 7] && t.ibuf.read 0 == some 5) = true ∧
      ∀ m ∈ [HostMove.writeIbuf 0 5, .readReg 0], (∀ w, m ≠ .issue w) ∧ m ≠ .reset := by
  refine ⟨by decide, fun m hm => ?_⟩
  simp only [List.mem_cons, List.not_mem_nil, or_false] at hm
  rcases hm with rfl | rfl <;> exact ⟨fun _ => by simp, by simp⟩
theorem witness_ConfigImmutable : step (exState.withFetchWord 48 0x1) = .next exState := rfl
/-- Canonical memories with bytes in them. -/
theorem witness_StepKeepsMemories :
    MemoryInv { exState with ibuf := [(0, 5), (511, 1)], obuf := [(261, 3)] } ∧
      step { exState with ibuf := [(0, 5), (511, 1)], obuf := [(261, 3)] } =
        .next { exState with ibuf := [(0, 5), (511, 1)], obuf := [(261, 3)] } :=
  ⟨⟨by decide, by decide, by decide, by decide⟩, rfl⟩
theorem witness_StepKeepsFrame :
    ObufInv frameState ∧ step frameState = .next frameState :=
  ⟨witness_ReadObufReturns.1, step_idle (by decide +kernel)⟩
/-- A state after a truncated field 6. -/
theorem witness_StepKeepsStatus :
    StatusInv { exState with status := ⟨2, false, 6⟩ } ∧
      step { exState with status := ⟨2, false, 6⟩ } = .next { exState with status := ⟨2, false, 6⟩ } :=
  ⟨⟨⟨.truncatedFrame, by decide, rfl⟩, fun h => absurd rfl h, fun _ => by decide, fun _ => rfl⟩, rfl⟩
theorem witness_StepKeepsReading : ResultInv oneReading ∧ step oneReading = .next oneReading := ⟨oneReading_fits, rfl⟩
theorem witness_DutifulHostNeverStops :
    oneReading.Inv ∧ moveAllowed (.readResult 0) oneReading = true ∧ moveReady (.readResult 0) oneReading := by
  refine ⟨⟨show oneReading.config.wf = true by decide, ⟨by decide, by decide, by decide, by decide⟩, ⟨⟨.ok, by decide, rfl⟩, fun _ _ => rfl, ?_, ?_⟩,
    .inl rfl, oneReading_fits⟩, by decide, trivial⟩
  · intro h
    exact absurd h (by decide)
  · intro h
    exact absurd h (by decide)
theorem witness_ConfigureRefusesIllFormed : Config.ofEX.wf = true ∧ Config.wf ⟨[], 512⟩ = false := by decide
/-- The bounds of `IBUF_SIZE`, each at its boundary. -/
theorem witness_ConfigureRefusesIllFormed_bounds :
    Config.wf ⟨oneField.catalog, 258⟩ = true ∧ Config.wf ⟨oneField.catalog, 257⟩ = false ∧
      Config.wf ⟨oneField.catalog, 65535⟩ = true ∧ Config.wf ⟨oneField.catalog, 65536⟩ = false := by decide
/-- One ill-formed configuration for each clause: KIND, WIDTH and SCALE; CATEGORY; PRIMARY; the span; the names. -/
theorem witness_ConfigureRefusesIllFormed_clauses :
    (exWith 3 0x0843).wf = false ∧ (exWith 5 (packLut 0 0 1 7 false)).wf = false ∧
      (exWith 3 (packLut 3 2 2 2 true)).wf = false ∧ (textFields 29).wf = false ∧ (textFields 28).wf = true ∧
      Config.wf { Config.ofEX with catalog := exampleCatalog ++ [⟨packLut 0 0 1 6 false, "AC Power", ""⟩] } = false := by
  decide +kernel

end Sys2Proof.Tests
end

section
/-! Proofs about STATUS (spec/10_state.md R24 to R28): the places of its fields in the register word, and who writes
VALID. The facts about command words and moves that they need stand first. -/

namespace Sys2Proof.Machine

/-! ## The fields of STATUS in its word -/

theorem statusWord_err (st : Status) : (statusWord st).extractLsb' 0 4 = st.err :=
  BitVec.extractLsb'_append_eq_right

theorem statusWord_valid (st : Status) : (statusWord st).getLsbD 4 = st.valid := by
  simp only [statusWord, BitVec.getLsbD_append]
  simp

theorem statusWord_reserved (st : Status) : (statusWord st).extractLsb' 5 3 = 0 := by
  unfold statusWord
  rw [BitVec.extractLsb'_append_eq_of_le (by decide : 4 ≤ 5), BitVec.extractLsb'_append_eq_of_le (le_refl 1)]
  exact BitVec.extractLsb'_append_eq_right

theorem statusWord_errField (st : Status) : (statusWord st).extractLsb' 8 8 = st.errField := by
  unfold statusWord
  rw [BitVec.extractLsb'_append_eq_of_le (by decide : 4 ≤ 8), BitVec.extractLsb'_append_eq_of_le (by decide : 1 ≤ 4)]
  exact BitVec.extractLsb'_append_eq_left

/-- Settles O43, field by field. -/
theorem statusLayout : Obligations.StatusLayout := fun st =>
  ⟨statusWord_reserved st, statusWord_err st, statusWord_valid st, statusWord_errField st⟩

/-! ## Illegal command words -/

/-- A slice is zero exactly when its lower and its upper part are. -/
theorem extractLsb'_add_eq_zero_iff {k : Nat} (x : BitVec k) (start m n : Nat) :
    x.extractLsb' start (m + n) = 0 ↔ x.extractLsb' start n = 0 ∧ x.extractLsb' (start + n) m = 0 := by
  rw [← BitVec.extractLsb'_append_extractLsb'_eq_extractLsb' (x := x) (rfl : start + n = start + n)]
  constructor
  · intro h
    have hlow := congrArg (BitVec.extractLsb' 0 n) h
    have hhigh := congrArg (BitVec.extractLsb' n m) h
    rw [BitVec.extractLsb'_append_eq_right] at hlow
    rw [BitVec.extractLsb'_append_eq_left] at hhigh
    exact ⟨by simpa using hlow, by simpa using hhigh⟩
  · rintro ⟨hlow, hhigh⟩
    rw [hlow, hhigh]
    exact BitVec.zero_append_zero

/-- `w[31:8]` is zero exactly when `P0`, `P1` and `P2` are. -/
theorem operandBytes_eq_zero_iff (w : CmdWord) :
    w.extractLsb' 8 24 = 0 ↔ cmdP0 w = 0 ∧ cmdP1 w = 0 ∧ cmdP2 w = 0 :=
  (extractLsb'_add_eq_zero_iff w 8 16 8).trans (and_congr_right' (extractLsb'_add_eq_zero_iff w 16 8 8))

/-- `w[47:16]` is zero exactly when `P1`, `P2` and `LEN` are. -/
theorem afterP0_eq_zero_iff (w : CmdWord) :
    w.extractLsb' 16 32 = 0 ↔ cmdP1 w = 0 ∧ cmdP2 w = 0 ∧ cmdLen w = 0 :=
  (extractLsb'_add_eq_zero_iff w 16 24 8).trans (and_congr_right' (extractLsb'_add_eq_zero_iff w 24 16 8))

/-- `w[47:8]` is zero exactly when every field but `OPC` is. -/
theorem afterOpc_eq_zero_iff (w : CmdWord) :
    w.extractLsb' 8 40 = 0 ↔ cmdP0 w = 0 ∧ cmdP1 w = 0 ∧ cmdP2 w = 0 ∧ cmdLen w = 0 :=
  (extractLsb'_add_eq_zero_iff w 8 32 8).trans (and_congr_right' (afterP0_eq_zero_iff w))

/-- R73 in terms of the named fields. -/
theorem illegalWord_iff_fields (w : CmdWord) :
    illegalWord w ↔
      (cmdOpc w ≠ 0x01#8 ∧ cmdOpc w ≠ 0x02#8 ∧ cmdOpc w ≠ 0x03#8 ∧ cmdOpc w ≠ 0x10#8 ∧ cmdOpc w ≠ 0x20#8) ∨
      (cmdOpc w = 0x01#8 ∧ ¬(cmdP0 w = 0 ∧ cmdP1 w = 0 ∧ cmdP2 w = 0 ∧ cmdLen w = 0)) ∨
      (cmdOpc w = 0x02#8 ∧ ¬(cmdP1 w = 0 ∧ cmdP2 w = 0 ∧ cmdLen w = 0)) ∨
      (cmdOpc w = 0x03#8 ∧ ¬(cmdP0 w = 0 ∧ cmdP1 w = 0 ∧ cmdP2 w = 0)) ∨
      (cmdOpc w = 0x20#8 ∧ ¬(cmdP0 w = 0 ∧ cmdP1 w = 0 ∧ cmdP2 w = 0)) := by
  rw [← afterOpc_eq_zero_iff, ← afterP0_eq_zero_iff, ← operandBytes_eq_zero_iff]
  exact Iff.rfl

/-- A decoder arm that checks its "must be 0" fields answers an error exactly when the check fails. -/
theorem decoderArm_error_iff {p : Prop} [Decidable p] (i : Instr) (d : DecodeError) :
    (∃ e, (if p then .ok i else .error d : Except DecodeError Instr) = .error e) ↔ ¬p := by
  by_cases hp : p <;> simp [hp]

/-- The decoder turns down exactly the words R73 calls illegal. -/
theorem illegalWord_iff_decodeCmd_error (w : CmdWord) : illegalWord w ↔ ∃ e, decodeCmd w = .error e := by
  rw [illegalWord_iff_fields]
  unfold decodeCmd
  by_cases h1 : cmdOpc w = 0x01#8
  · simp [h1, decoderArm_error_iff]
  by_cases h2 : cmdOpc w = 0x02#8
  · simp [h2, decoderArm_error_iff]
  by_cases h3 : cmdOpc w = 0x03#8
  · simp [h3, decoderArm_error_iff]
  by_cases h4 : cmdOpc w = 0x10#8
  · simp [h4]
  by_cases h5 : cmdOpc w = 0x20#8
  · simp [h5, decoderArm_error_iff]
  · simp [h1, h2, h3, h4, h5]

/-- An illegal word raises ILLEGAL_COMMAND and does nothing else (R73, R184 a). -/
theorem hostIssue_of_illegalWord {w : CmdWord} (h : illegalWord w) (s : State) :
    hostIssue w s = .next (s.raise .illegalCommand 0) := by
  obtain ⟨e, he⟩ := (illegalWord_iff_decodeCmd_error w).1 h
  simp [hostIssue, he]

/-! ## The writers of VALID -/

/-- `DECODE` leaves VALID 1 on success and 0 on each error it raises (R26). -/
theorem execDecode_valid {n : Word16} {s t : State} (h : execDecode n s = .next t) :
    t.status.valid = decide (t.status.err = 0) := by
  rcases execDecode_next h with ⟨_, rfl⟩ | ⟨_, rfl⟩ | ⟨e, k, hstop, rfl⟩ | ⟨rs, _, _, _, rfl⟩
  · simp
  · simp
  · obtain ⟨rfl | rfl, _⟩ := decodeFields_raised hstop <;> simp
  · simp

/-- No operation but `DECODE` writes VALID (R26). -/
theorem exec_keeps_valid {i : Instr} {s t : State} (hi : ∀ n, i ≠ .decode n) (h : exec i s = .next t) :
    t.status.valid = s.status.valid := by
  cases i with
  | crcInit => cases h; rfl
  | crcFeed b => cases h; rfl
  | crcCompute n => rcases execCrcCompute_next h with ⟨_, rfl⟩ | ⟨_, _, _, rfl⟩ <;> rfl
  | buildQuery addr cmd sub n => rcases execBuildQuery_next h with ⟨_, rfl⟩ | ⟨_, _, _, rfl⟩ <;> rfl
  | decode n => exact absurd rfl (hi n)

/-- A move that is neither an issue nor reset writes nothing in STATUS. -/
theorem hostMove_keeps_status {m : HostMove} {s t : State} (hissue : ∀ w, m ≠ .issue w) (hreset : m ≠ .reset)
    (h : hostMove m s = .next t) : t.status = s.status := by
  cases m with
  | issue w => exact absurd rfl (hissue w)
  | readReg n => obtain ⟨_, _, rfl⟩ := hostReadReg_next h; rfl
  | writeIbuf i b => obtain ⟨_, rfl⟩ := hostWriteIbuf_next h; rfl
  | readObuf i => obtain ⟨_, _, _, rfl⟩ := hostReadObuf_next h; rfl
  | readResult k => obtain ⟨_, _, _, _, rfl⟩ := hostReadResult_next h; rfl
  | reset => exact absurd rfl hreset

/-- Settles O41, one clause for each kind of move. -/
theorem validWriters : Obligations.ValidWriters := by
  refine ⟨fun n s t h => execDecode_valid h, fun i s t hi h => exec_keeps_valid hi h, fun w s t hw h => ?_,
    fun s t h => ?_, fun m s t hissue hreset h => congrArg Status.valid (hostMove_keeps_status hissue hreset h)⟩
  · rw [hostIssue_of_illegalWord hw] at h
    cases h
    rfl
  · cases h
    rfl

end Sys2Proof.Machine
end

section
/-! Proofs about the host's moves (spec/20_memory.md R51 to R56): a move is made only where its precondition holds. -/

namespace Sys2Proof.Machine

/-- The register map ends at register 4 (spec/10_state.md R36). -/
theorem readReg_eq_none_of_le {n : Nat} (hn : 5 ≤ n) (s : State) : readReg s n = none := by
  have h0 : n ≠ 0 := by omega
  have h1 : n ≠ 1 := by omega
  have h2 : n ≠ 2 := by omega
  have h3 : n ≠ 3 := by omega
  have h4 : n ≠ 4 := by omega
  simp [readReg, h0, h1, h2, h3, h4]

theorem lt_of_readReg_eq_some {n : Nat} {s : State} {v : Word16} (hv : readReg s n = some v) : n < 5 := by
  by_contra hn
  rw [readReg_eq_none_of_le (Nat.le_of_not_lt hn)] at hv
  cases hv

/-- R56: a move that answers a next state meets its precondition. -/
theorem moveAllowed_of_hostMove_next {m : HostMove} {s t : State} (h : hostMove m s = .next t) :
    moveAllowed m s = true := by
  cases m with
  | issue w => rfl
  | readReg n =>
    obtain ⟨_, hv, _⟩ := hostReadReg_next h
    exact decide_eq_true (lt_of_readReg_eq_some hv)
  | writeIbuf i b => exact decide_eq_true (hostWriteIbuf_next h).1
  | readObuf i => exact decide_eq_true (hostReadObuf_next h).1
  | readResult k =>
    obtain ⟨hk, hvalid, _⟩ := hostReadResult_next h
    simp [moveAllowed, hk, hvalid]
  | reset => rfl

/-- A move whose precondition fails answers no next state. -/
theorem hostMove_ne_next_of_not_allowed {m : HostMove} {s : State} (hm : moveAllowed m s = false) (t : State) :
    hostMove m s ≠ .next t := fun h => by
  rw [moveAllowed_of_hostMove_next h] at hm
  cases hm

/-- Settles O48: each of the four conditions makes the move's precondition false. -/
theorem forbiddenMovesDoNotMove : Obligations.ForbiddenMovesDoNotMove := by
  refine ⟨fun i b s t hi => hostMove_ne_next_of_not_allowed ?_ t, fun i s t hi => hostMove_ne_next_of_not_allowed ?_ t,
    fun k s t hk => hostMove_ne_next_of_not_allowed ?_ t, fun n s t hn => hostMove_ne_next_of_not_allowed ?_ t⟩
  · exact decide_eq_false (Nat.not_lt.2 hi)
  · exact decide_eq_false (Nat.not_lt.2 hi)
  · rcases hk with hk | hvalid
    · simp [moveAllowed, Nat.not_lt.2 hk]
    · simp [moveAllowed, hvalid]
  · exact decide_eq_false (Nat.not_lt.2 hn)

end Sys2Proof.Machine
end

section
/-! Proofs about encodings (spec/30_encoding.md): R74's table of command words, R73's illegal words, and the layout of
the query frame (R90, R91). -/

namespace Sys2Proof.Machine

/-! ## Command words -/

/-- A decoder arm that checks its "must be 0" fields answers its operation exactly when the check passes. -/
theorem decoderArm_toOption {p : Prop} [Decidable p] (i : Instr) (d : DecodeError) :
    (if p then .ok i else .error d : Except DecodeError Instr).toOption = if p then some i else none :=
  apply_ite Except.toOption p (.ok i) (.error d)

/-- R74 in terms of the named fields. -/
theorem decodeCmd_toOption (w : CmdWord) : (decodeCmd w).toOption =
    if cmdOpc w = 0x01#8 ∧ cmdP0 w = 0 ∧ cmdP1 w = 0 ∧ cmdP2 w = 0 ∧ cmdLen w = 0 then some .crcInit
    else if cmdOpc w = 0x02#8 ∧ cmdP1 w = 0 ∧ cmdP2 w = 0 ∧ cmdLen w = 0 then some (.crcFeed (cmdP0 w))
    else if cmdOpc w = 0x03#8 ∧ cmdP0 w = 0 ∧ cmdP1 w = 0 ∧ cmdP2 w = 0 then some (.crcCompute (cmdLen w))
    else if cmdOpc w = 0x10#8 then some (.buildQuery (cmdP0 w) (cmdP1 w) (cmdP2 w) (cmdLen w))
    else if cmdOpc w = 0x20#8 ∧ cmdP0 w = 0 ∧ cmdP1 w = 0 ∧ cmdP2 w = 0 then some (.decode (cmdLen w))
    else none := by
  unfold decodeCmd
  by_cases h1 : cmdOpc w = 0x01#8
  · simp [h1, decoderArm_toOption]
  by_cases h2 : cmdOpc w = 0x02#8
  · simp [h2, decoderArm_toOption]
  by_cases h3 : cmdOpc w = 0x03#8
  · simp [h3, decoderArm_toOption]
  by_cases h4 : cmdOpc w = 0x10#8
  · simp [h4, Except.toOption]
  by_cases h5 : cmdOpc w = 0x20#8
  · simp [h5, decoderArm_toOption]
  · simp [h1, h2, h3, h4, h5, Except.toOption]

/-- Settles O3: R74's slices are zero exactly when the fields they span are. -/
theorem decodeIsTotalByTable : Obligations.DecodeIsTotalByTable := fun w => by
  simp only [afterOpc_eq_zero_iff, afterP0_eq_zero_iff, operandBytes_eq_zero_iff]
  exact decodeCmd_toOption w

/-- No operation has the code 0, so the zero word is illegal by case (a) of R73. -/
theorem illegalWord_zero : illegalWord 0x000000000000 :=
  .inl (by decide)

/-- Settles O6, from the decoder's errors and the effect of an illegal issue. -/
theorem illegalWordRaises : Obligations.IllegalWordRaises :=
  ⟨illegalWord_iff_decodeCmd_error, fun _ s hw => hostIssue_of_illegalWord hw s, illegalWord_zero⟩

/-! ## The query frame -/

/-- After its six header bytes the frame is the payload and the three trailer bytes: the CRC's low byte, its high byte,
ETX (R90, R91). -/
theorem pack_getElem?_afterHeader (addr cmd sub : Byte) (p : List Byte) (i : Nat) :
    (pack addr cmd sub p)[i + 6]? =
      (p ++ [lo8 (crc16 (packBody addr cmd sub p)), hi8 (crc16 (packBody addr cmd sub p)), etx])[i]? := rfl

theorem pack_getElem?_payload (addr cmd sub : Byte) {p : List Byte} {j : Nat} (hj : j < p.length) :
    (pack addr cmd sub p)[6 + j]? = p[j]? := by
  rw [Nat.add_comm, pack_getElem?_afterHeader, List.getElem?_append_left hj]

theorem pack_getElem?_trailer (addr cmd sub : Byte) (p : List Byte) (k : Nat) :
    (pack addr cmd sub p)[6 + k + p.length]? =
      [lo8 (crc16 (packBody addr cmd sub p)), hi8 (crc16 (packBody addr cmd sub p)), etx][k]? := by
  have hindex : 6 + k + p.length = p.length + k + 6 := by omega
  rw [hindex, pack_getElem?_afterHeader, List.getElem?_append_right (Nat.le_add_right _ _), Nat.add_sub_cancel_left]

/-- The Length byte holds `N + 2` without wrapping, for every payload the packer takes (R90). -/
theorem lengthByte_toNat {n : Nat} (hn : n ≤ maxPayload) : (BitVec.ofNat 8 (n + 2)).toNat = n + 2 := by
  have : n + 2 < 2 ^ 8 := Nat.lt_of_le_of_lt (Nat.add_le_add_right hn 2) (by decide)
  rw [BitVec.toNat_ofNat, Nat.mod_eq_of_lt this]

/-- Settles O22: the header by computation, then the Length byte, the payload and the trailer. -/
theorem frameLayout : Obligations.FrameLayout := fun addr cmd sub p hp =>
  ⟨pack_length addr cmd sub p, rfl, rfl, rfl,
    ⟨BitVec.ofNat 8 (p.length + 2), rfl, lengthByte_toNat hp⟩, rfl, rfl,
    fun _ hj => pack_getElem?_payload addr cmd sub hj,
    ⟨crc16 (packBody addr cmd sub p), rfl, pack_getElem?_trailer addr cmd sub p 0,
      pack_getElem?_trailer addr cmd sub p 1⟩,
    pack_getElem?_trailer addr cmd sub p 2⟩

end Sys2Proof.Machine
end

section
/-! Proofs about the CRC-16 generator (spec/40_crc.md): the feedback step stage by stage (R100), the CRC of a sequence
(R102), and `CRC_INIT` (R103). -/

namespace Sys2Proof.Machine

/-! ## The feedback step -/

/-- Each stage takes its upper neighbour, and the polynomial's stages also take the bit that leaves stage 0 (R100). -/
theorem crcStep_getLsbD (c : Word16) (i : Nat) :
    (crcStep c).getLsbD i = (c.getLsbD (i + 1) ^^ (c.getLsbD 0 && crcPoly.getLsbD i)) := by
  unfold crcStep
  cases c.getLsbD 0 <;> simp [Nat.add_comm]

/-- Below stage 15 the polynomial's stages are 13 and 0. -/
theorem crcPoly_getLsbD_of_lt {i : Nat} (hi : i < 15) : crcPoly.getLsbD i = (i == 13 || i == 0) := by
  revert i
  decide

/-- Stage 15 has no upper neighbour: a 0 enters it, so it takes the feedback bit alone (R100). -/
theorem crcStep_getLsbD_top (c : Word16) : (crcStep c).getLsbD 15 = c.getLsbD 0 := by
  have hpoly : crcPoly.getLsbD 15 = true := by decide
  have habove : c.getLsbD (15 + 1) = false := BitVec.getLsbD_of_ge c 16 (le_refl 16)
  rw [crcStep_getLsbD, hpoly, habove, Bool.and_true, Bool.false_xor]

/-- Settles O10: the stages below 15 by the polynomial's bits, then stage 15. -/
theorem crcStepStages : Obligations.CrcStepStages := fun c =>
  ⟨rfl, fun i hi => by rw [crcStep_getLsbD, crcPoly_getLsbD_of_lt hi], crcStep_getLsbD_top c⟩

/-! ## The CRC of a sequence -/

/-- Settles O15, from the laws of `crc16` on the empty sequence and on one more byte. -/
theorem crcOfSequence : Obligations.CrcOfSequence := ⟨crc16_nil, crc16_concat⟩

/-! ## `CRC_INIT` -/

theorem exec_crcInit (s : State) : exec .crcInit s = .next { s with crc := crcInitValue }.complete := rfl

/-- A command word is its operand fields `w[47:8]` above its operation code. -/
theorem cmdWord_eq_append (w : CmdWord) : w = w.extractLsb' 8 40 ++ cmdOpc w := by
  have hjoin : w.extractLsb' 8 40 ++ w.extractLsb' 0 8 = w.extractLsb' 0 48 :=
    BitVec.extractLsb'_append_extractLsb'_eq_extractLsb' rfl
  exact (hjoin.trans BitVec.extractLsb'_eq_self).symm

/-- The code of `CRC_INIT` has one legal word (R103). -/
theorem illegalWord_of_crcInit_code {w : CmdWord} (hopc : cmdOpc w = 0x01#8) (hw : w ≠ 0x000000000001) :
    illegalWord w := by
  have hoperands : w.extractLsb' 8 40 ≠ 0 := fun hzero => hw <| by
    rw [cmdWord_eq_append w, hzero, hopc]
    rfl
  exact .inr (.inl ⟨hopc, hoperands⟩)

/-- Issuing `CRC_INIT` twice leaves what issuing it once does (R103). -/
theorem runInstrs_crcInit_twice (s : State) : runInstrs [.crcInit, .crcInit] s = runInstrs [.crcInit] s := rfl

/-- Settles O16: the effect by computation, the one word by decoding it, and every other word of its code as illegal. -/
theorem crcInitResult : Obligations.CrcInitResult :=
  ⟨exec_crcInit, by decide,
    fun _ s hopc hw => hostIssue_of_illegalWord (illegalWord_of_crcInit_code hopc hw) s, runInstrs_crcInit_twice⟩

end Sys2Proof.Machine
end

section
/-! Proofs about the query-frame packer (spec/41_frame_packer.md): `BUILD_QUERY` past its bound (R123). -/

namespace Sys2Proof.Machine

/-- A payload above the bound is turned down in every state: the answer does not depend on what `IBUF` holds (R123). -/
theorem execBuildQuery_of_maxPayload_lt {n : Word16} (hn : maxPayload < n.toNat) (addr cmd sub : Byte) (s : State) :
    execBuildQuery addr cmd sub n s = .next ({ s with olen := 0 }.raise .preconditionViolation 0) :=
  if_pos hn

/-- Within the bound the only next state is a completed frame's. -/
theorem execBuildQuery_err_eq_zero {addr cmd sub : Byte} {n : Word16} {s t : State} (hn : n.toNat ≤ maxPayload)
    (h : execBuildQuery addr cmd sub n s = .next t) : t.status.err = 0 := by
  rcases execBuildQuery_next h with ⟨hlt, _⟩ | ⟨_, _, _, rfl⟩
  · exact absurd hn (Nat.not_le.2 hlt)
  · rfl

/-- Settles O26, one clause on each side of the bound. -/
theorem buildQueryTooLong : Obligations.BuildQueryTooLong := fun addr cmd sub _ s =>
  ⟨fun hn => execBuildQuery_of_maxPayload_lt hn addr cmd sub s, fun hn _ h => execBuildQuery_err_eq_zero hn h⟩

end Sys2Proof.Machine
end

section
/-! Proofs about the response decoder (spec/42_decoder.md): `DECODE` looks only at the catalog span (R154), and where a text
field is cut (R151, R152). -/

namespace Sys2Proof.Machine

/-! ## What `DECODE` reads of `IBUF` -/

/-- Reading a sequence looks at its own indexes only. -/
theorem Memory.readSeq_congr {m m' : Memory} {i n : Nat} (h : ∀ j, i ≤ j → j < i + n → m.read j = m'.read j) :
    m.readSeq i n = m'.readSeq i n := by
  induction n generalizing i with
  | zero => rfl
  | succ n ih =>
    have hfirst : m.read i = m'.read i := h i (le_refl i) (by omega)
    have hrest : m.readSeq (i + 1) n = m'.readSeq (i + 1) n := ih fun j hj hjn => h j (by omega) (by omega)
    simp only [Memory.readSeq, hfirst, hrest]

/-- A field looks at the bytes of its own span only. -/
theorem decodeField_congr {m m' : Memory} {cur : Nat} {e : LutWord}
    (h : ∀ j, cur ≤ j → j < cur + lutWidth e → m.read j = m'.read j) (len k : Nat) :
    decodeField m len cur k e = decodeField m' len cur k e := by
  simp only [decodeField, Memory.readSeq_congr h]

/-- The field loop looks at the span of its entries only. -/
theorem decodeFields_congr {m m' : Memory} {cur : Nat} {es : List LutWord}
    (h : ∀ j, cur ≤ j → j < cur + lutSpan es → m.read j = m'.read j) (len k : Nat) :
    decodeFields m len cur k es = decodeFields m' len cur k es := by
  induction es generalizing cur k with
  | nil => rfl
  | cons e es ih =>
    rw [lutSpan_cons] at h
    have hfield := decodeField_congr (e := e) (fun j hj hje => h j hj (by omega)) len k
    have hrest := ih (cur := cur + lutWidth e) (fun j hj hje => h j (by omega) (by omega)) (k + 1)
    simp only [decodeFields, hfield, hrest]

/-- `DECODE` does not write `IBUF`, and all it learns from it is the answer of the field loop. -/
theorem execDecode_withIbuf {n : Word16} {s : State} {m : Memory}
    (h : decodeFields m n.toNat respHeader 0 s.config.lut = decodeFields s.ibuf n.toNat respHeader 0 s.config.lut) :
    execDecode n { s with ibuf := m } = mapNext (fun t => { t with ibuf := m }) (execDecode n s) := by
  unfold execDecode
  rw [h]
  split
  · rfl
  split
  · rfl
  cases decodeFields s.ibuf n.toNat respHeader 0 s.config.lut with
  | ok rs => rfl
  | error stop => cases stop <;> rfl

/-- Settles O31: the field loop starts after the header and ends with the catalog span. -/
theorem decodeIgnoresHeaderAndTrailer : Obligations.DecodeIgnoresHeaderAndTrailer := fun n _ _ h =>
  execDecode_withIbuf (decodeFields_congr h n.toNat 0)

/-! ## The cut of a text field -/

theorem trimLen_le (s : List Byte) (t : Nat) : trimLen s t ≤ t := by
  induction t with
  | zero => exact le_refl 0
  | succ t ih =>
    unfold trimLen
    split
    · omega
    · exact le_refl _

/-- Every byte cut off is one of the trim set. -/
theorem getD_mem_trimSet_of_trimLen_le {s : List Byte} {t i : Nat} (hi : trimLen s t ≤ i) (hit : i < t) :
    s.getD i 0 ∈ trimSet := by
  induction t with
  | zero => exact absurd hit (Nat.not_lt_zero i)
  | succ t ih =>
    unfold trimLen at hi
    split at hi
    · next hlast =>
      rcases Nat.lt_succ_iff_lt_or_eq.1 hit with hlt | rfl
      · exact ih hi hlt
      · exact hlast
    · omega

/-- The last byte kept is not one of the trim set. -/
theorem getD_notMem_trimSet_of_trimLen_eq {s : List Byte} {t u : Nat} (h : trimLen s t = u + 1) :
    s.getD u 0 ∉ trimSet := by
  induction t with
  | zero => cases h
  | succ t ih =>
    unfold trimLen at h
    split at h
    · exact ih h
    · next hlast => cases h; exact hlast

/-- R151 on the whole field: the bytes after the cut are all of the trim set. -/
theorem mem_trimSet_of_mem_drop_trimLen {s : List Byte} {b : Byte} (hb : b ∈ s.drop (trimLen s s.length)) :
    b ∈ trimSet := by
  obtain ⟨i, hi, rfl⟩ := List.mem_drop_iff_getElem.1 hb
  have hindex : trimLen s s.length + i < s.length := by omega
  have hmem := getD_mem_trimSet_of_trimLen_le (Nat.le_add_right (trimLen s s.length) i) hindex
  rwa [List.getD_eq_getElem _ _ hindex] at hmem

/-- R151 on the whole field: the byte before the cut is not of the trim set. -/
theorem notMem_trimSet_of_trimLen_eq {s : List Byte} {u : Nat} {b : Byte} (h : trimLen s s.length = u + 1)
    (hb : s[u]? = some b) : b ∉ trimSet := by
  have hlast := getD_notMem_trimSet_of_trimLen_eq h
  rwa [List.getD_eq_getElem?_getD, hb] at hlast

/-! ## The slot of a text field -/

/-- A text field whose bytes are all below 0x80 gives its text slot (R151, R153). -/
theorem fieldSlot_of_text {e : LutWord} {bs : List Byte} (hkind : fieldKind (lutKind e) = some .text)
    (hbytes : ∀ b ∈ bs, b.toNat < 0x80) : fieldSlot e bs = .ok (textSlot e bs) := by
  have hvalid : bs.any invalidText = false := by simpa [invalidText] using hbytes
  simp [fieldSlot, hkind, hvalid]

/-- SLEN holds the trimmed length of a field that fits in SBYTES (R151). -/
theorem textSlot_slen_toNat (e : LutWord) {bs : List Byte} (hlen : bs.length ≤ 18) :
    (textSlot e bs).slen.toNat = trimLen bs bs.length := by
  have hcut := trimLen_le bs bs.length
  have hlt : trimLen bs bs.length < 2 ^ 5 := by omega
  exact (BitVec.toNat_ofNat _ _).trans (Nat.mod_eq_of_lt hlt)

/-- A text slot stands for the bytes before the cut, without the padding (R151). -/
theorem slotValue_textSlot {e : LutWord} {bs : List Byte} (hkind : fieldKind (lutKind e) = some .text)
    (hlen : bs.length ≤ 18) : slotValue (textSlot e bs) = .text (bs.take (trimLen bs bs.length)) := by
  have hkept : (bs.take (trimLen bs bs.length)).length = trimLen bs bs.length :=
    List.length_take_of_le (trimLen_le bs bs.length)
  have hvalue : slotValue (textSlot e bs) = .text ((textSlot e bs).sbytes.take (textSlot e bs).slen.toNat) :=
    if_pos hkind
  rw [hvalue, textSlot_slen_toNat e hlen]
  exact congrArg FieldValue.text (List.take_left' hkept)

/-- Settles O35, with the trimmed length of the whole field as the cut. -/
theorem textFieldTrimmed : Obligations.TextFieldTrimmed := fun e bs hkind hlen hbytes =>
  ⟨trimLen bs bs.length, textSlot e bs, trimLen_le bs bs.length, fieldSlot_of_text hkind hbytes, rfl, rfl, rfl,
    textSlot_slen_toNat e hlen, rfl, fun _ hb => mem_trimSet_of_mem_drop_trimLen hb,
    fun _ _ ht hb => notMem_trimSet_of_trimLen_eq ht hb, slotValue_textSlot hkind hlen⟩

end Sys2Proof.Machine
end

section
/-! Proofs about errors (spec/60_exceptions.md): which errors each operation can raise (R181), what each error changes
(R184), and the order of the checks (R185). The facts about the decoder's fields that they need stand first. -/

namespace Sys2Proof.Machine

/-! ## One field against the conditions of a `DECODE` -/

/-- R141 (b): every entry of a well-formed configuration agrees with R81. -/
theorem entryLegal_of_wf {c : Config} {k : Nat} {e : LutWord} (hwf : c.wf = true) (he : c.lut[k]? = some e) :
    entryLegal e = true := by
  have hentries : checkEntries c = true := by
    simp only [Config.wf, Bool.and_eq_true] at hwf
    tauto
  exact List.all_eq_true.1 hentries e (List.mem_of_getElem? he)

/-- A legal entry's kind is one of the six of R81, so its bytes make a slot, unless it is text and one of them is invalid. -/
theorem fieldSlot_of_entryLegal {e : LutWord} (hlegal : entryLegal e = true) (bs : List Byte) :
    (∃ r, fieldSlot e bs = .ok r) ∨ fieldSlot e bs = .error .invalidByte := by
  unfold entryLegal at hlegal
  unfold fieldSlot
  cases hkind : fieldKind (lutKind e) with
  | none => simp [hkind] at hlegal
  | some kind =>
    cases kind with
    | text => cases bs.any invalidText <;> simp
    | _ => simp

theorem decodeField_ne_illFormed {m : Memory} {len cur k : Nat} {e : LutWord} (hlegal : entryLegal e = true) :
    decodeField m len cur k e ≠ .error .illFormed := by
  unfold decodeField
  rw [if_pos hlegal]
  split
  · simp
  cases m.readSeq cur (lutWidth e) with
  | error i => simp
  | ok bs =>
    obtain ⟨r, hr⟩ | hinvalid := fieldSlot_of_entryLegal hlegal bs
    · simp [hr]
    · simp [hinvalid]

theorem any_invalidText_iff (bs : List Byte) : bs.any invalidText = true ↔ ∃ b ∈ bs, 0x80 ≤ b.toNat := by
  simp [invalidText]

/-- A field gives a slot exactly when its entry is legal and it passes every check (R140). -/
theorem decodeField_ok_iff_fieldGood {s : State} {len k : Nat} {e : LutWord} :
    (∃ r, decodeField s.ibuf len (fieldOffset s.config.lut k) k e = .ok r) ↔
      entryLegal e = true ∧ fieldGood s len k e := by
  constructor
  · rintro ⟨r, hr⟩
    obtain ⟨hspan, hlegal, bs, hbs, hslot⟩ := decodeField_ok hr
    refine ⟨hlegal, hspan, bs, hbs, fun hkind => Bool.eq_false_iff.2 fun hany => ?_⟩
    rw [(fieldSlot_invalidByte_iff e bs).2 ⟨hkind, hany⟩] at hslot
    cases hslot
  · rintro ⟨hlegal, hspan, bs, hbs, htext⟩
    have hbytes : s.ibuf.readSeq (fieldOffset s.config.lut k) (lutWidth e) = .ok bs := hbs
    obtain ⟨r, hr⟩ | hinvalid := fieldSlot_of_entryLegal hlegal bs
    · exact ⟨r, by simp [decodeField, Nat.not_lt.2 hspan, hlegal, hbytes, hr]⟩
    · obtain ⟨hkind, hany⟩ := (fieldSlot_invalidByte_iff e bs).1 hinvalid
      rw [htext hkind] at hany
      cases hany

/-- The span is checked before anything else of the field (R145). -/
theorem decodeField_truncated {len cur : Nat} {e : LutWord} (h : len < cur + lutWidth e) (m : Memory) (k : Nat) :
    decodeField m len cur k e = .error (.raised .truncatedFrame k) :=
  if_pos h

/-- A text field within the response that holds a byte of 0x80 or above (R153). -/
theorem decodeField_encodingError {m : Memory} {len cur k : Nat} {e : LutWord} {bs : List Byte}
    (hspan : cur + lutWidth e ≤ len) (hlegal : entryLegal e = true) (hbs : m.readSeq cur (lutWidth e) = .ok bs)
    (hslot : fieldSlot e bs = .error .invalidByte) :
    decodeField m len cur k e = .error (.raised .encodingError k) := by
  simp [decodeField, Nat.not_lt.2 hspan, hlegal, hbs, hslot]

/-! ## The field loop -/

/-- The loop stops at the first entry that stops, with that entry's own stop (R145). -/
theorem decodeFields_of_first_error {m : Memory} {len cur k i : Nat} {es : List LutWord} {e : LutWord}
    {stop : DecodeStop} (he : es[i]? = some e)
    (hstop : decodeField m len (cur + lutSpan (es.take i)) (k + i) e = .error stop)
    (hbefore : ∀ j d, j < i → es[j]? = some d →
      ∃ r, decodeField m len (cur + lutSpan (es.take j)) (k + j) d = .ok r) :
    decodeFields m len cur k es = .error stop := by
  induction es generalizing cur k i with
  | nil => cases he
  | cons d es ih =>
    cases i with
    | zero =>
      cases he
      have hfirst : decodeField m len cur k e = .error stop := hstop
      simp only [decodeFields, hfirst]
    | succ i =>
      obtain ⟨r, hr⟩ := hbefore 0 d (Nat.succ_pos i) rfl
      have hfirst : decodeField m len cur k d = .ok r := hr
      have hshift (j : Nat) : decodeField m len (cur + lutSpan ((d :: es).take (j + 1))) (k + (j + 1)) =
          decodeField m len (cur + lutWidth d + lutSpan (es.take j)) (k + 1 + j) := by
        rw [List.take_succ_cons, lutSpan_cons, ← Nat.add_assoc, Nat.add_comm j, ← Nat.add_assoc]
      have hrest : decodeFields m len (cur + lutWidth d) (k + 1) es = .error stop :=
        ih he (hshift i ▸ hstop) fun j d' hj hd' => hshift j ▸ hbefore (j + 1) d' (Nat.succ_lt_succ hj) hd'
      simp only [decodeFields, hfirst, hrest]

/-- The field errors of a whole response: at `k`, the first field that fails a check (R145, R153). -/
theorem decodeFields_raised_first {s : State} {len k : Nat} {err : Err}
    (h : decodeFields s.ibuf len respHeader 0 s.config.lut = .error (.raised err k)) :
    ∃ e, s.config.lut[k]? = some e ∧ fieldsGoodBefore s len k ∧
      ((err = .truncatedFrame ∧ len < fieldOffset s.config.lut k + lutWidth e) ∨
        (err = .encodingError ∧ fieldOffset s.config.lut k + lutWidth e ≤ len ∧
          fieldKind (lutKind e) = some .text ∧ ∃ bs, fieldBytes s k e = .ok bs ∧ ∃ b ∈ bs, 0x80 ≤ b.toNat)) := by
  obtain ⟨i, e, he, hstop, hbefore⟩ := decodeFields_error h
  simp only [Nat.zero_add] at hstop hbefore
  obtain ⟨rfl, hfail⟩ := decodeField_raised hstop
  refine ⟨e, he, fun j d hj hd => (decodeField_ok_iff_fieldGood.1 (hbefore j d hj hd)).2, hfail.imp_right ?_⟩
  rintro ⟨herr, hspan, bs, hbs, hslot⟩
  obtain ⟨hkind, hany⟩ := (fieldSlot_invalidByte_iff e bs).1 hslot
  exact ⟨herr, hspan, hkind, bs, hbs, (any_invalidText_iff bs).1 hany⟩

theorem decodeFields_ne_illFormed {s : State} (hwf : s.config.wf = true) (len : Nat) :
    decodeFields s.ibuf len respHeader 0 s.config.lut ≠ .error .illFormed := fun h => by
  obtain ⟨_, _, he, hstop, _⟩ := decodeFields_error h
  exact decodeField_ne_illFormed (entryLegal_of_wf hwf he) hstop

/-! ## The order of the checks -/

theorem execCrcCompute_of_ibufSize_lt {n : Word16} {s : State} (hn : s.config.ibufSize < n.toNat) :
    execCrcCompute n s = .next (s.raise .preconditionViolation 0) :=
  if_pos hn

theorem execDecode_of_ibufSize_lt {n : Word16} {s : State} (hn : s.config.ibufSize < n.toNat) :
    execDecode n s = .next ((s.setValid false).raise .preconditionViolation 0) :=
  if_pos hn

theorem execDecode_of_short {n : Word16} {s : State} (hn : n.toNat ≤ s.config.ibufSize) (hshort : n.toNat < respMinLen) :
    execDecode n s = .next ((s.setValid false).raise .shortResponse 0) :=
  (if_neg (Nat.not_lt.2 hn)).trans (if_pos hshort)

/-- With every field before `k` passing, an error of field `k` is the outcome (R145, R185). -/
theorem execDecode_of_first_raised {n : Word16} {s : State} {k : Nat} {e : LutWord} {err : Err}
    (hwf : s.config.wf = true) (hn : n.toNat ≤ s.config.ibufSize) (hmin : respMinLen ≤ n.toNat)
    (he : s.config.lut[k]? = some e) (hbefore : fieldsGoodBefore s n.toNat k)
    (hstop : decodeField s.ibuf n.toNat (fieldOffset s.config.lut k) k e = .error (.raised err k)) :
    execDecode n s = .next ((s.setValid false).raise err (BitVec.ofNat 8 k)) := by
  have hloop : decodeFields s.ibuf n.toNat respHeader 0 s.config.lut = .error (.raised err k) := by
    refine decodeFields_of_first_error he ?_ fun j d hj hd => ?_
    · rw [Nat.zero_add]
      exact hstop
    · rw [Nat.zero_add]
      exact decodeField_ok_iff_fieldGood.2 ⟨entryLegal_of_wf hwf hd, hbefore j d hj hd⟩
  simp [execDecode, Nat.not_lt.2 hn, Nat.not_lt.2 hmin, hloop]

/-- Settles O29, check by check: legality, the bound on LEN, the least length, then field `k`'s span and its content. -/
theorem decodeErrorPriority : Obligations.DecodeErrorPriority := by
  refine ⟨fun w s hw => hostIssue_of_illegalWord hw s,
    fun n s hn => ⟨execCrcCompute_of_ibufSize_lt hn, execDecode_of_ibufSize_lt hn⟩,
    fun addr cmd sub n s hn => execBuildQuery_of_maxPayload_lt hn addr cmd sub s,
    fun n s hn hshort => execDecode_of_short hn hshort,
    fun n s k e hwf hn hmin he hbefore => ⟨fun hspan => ?_, fun hspan bs hbs hkind hinvalid => ?_⟩⟩
  · exact execDecode_of_first_raised hwf hn hmin he hbefore (decodeField_truncated hspan _ _)
  · have hslot := (fieldSlot_invalidByte_iff e bs).2 ⟨hkind, (any_invalidText_iff bs).2 hinvalid⟩
    exact execDecode_of_first_raised hwf hn hmin he hbefore
      (decodeField_encodingError hspan (entryLegal_of_wf hwf he) hbs hslot)

/-! ## What an error changes -/

/-- R184 (a): an error of `CRC_COMPUTE` changes nothing else. -/
theorem execCrcCompute_error {n : Word16} {s t : State} (h : execCrcCompute n s = .next t) (herr : t.status.err ≠ 0) :
    t = s.raise .preconditionViolation 0 := by
  rcases execCrcCompute_next h with ⟨_, ht⟩ | ⟨_, _, _, rfl⟩
  · exact ht
  · exact absurd rfl herr

/-- R184 (c): an error of `BUILD_QUERY` also writes OLEN. -/
theorem execBuildQuery_error {addr cmd sub : Byte} {n : Word16} {s t : State}
    (h : execBuildQuery addr cmd sub n s = .next t) (herr : t.status.err ≠ 0) :
    t = { s with olen := 0 }.raise .preconditionViolation 0 := by
  rcases execBuildQuery_next h with ⟨_, ht⟩ | ⟨_, _, _, rfl⟩
  · exact ht
  · exact absurd rfl herr

/-- R184 (d): every error of `DECODE` also writes VALID; its field index is 0, or that of the first field that fails. -/
theorem execDecode_error {n : Word16} {s t : State} (h : execDecode n s = .next t) (herr : t.status.err ≠ 0) :
    ∃ err field, t = (s.setValid false).raise err field ∧
      (((err = .shortResponse ∨ err = .preconditionViolation) ∧ field = 0) ∨
        ∃ k, field = BitVec.ofNat 8 k ∧
          decodeFields s.ibuf n.toNat respHeader 0 s.config.lut = .error (.raised err k)) := by
  rcases execDecode_next h with ⟨_, ht⟩ | ⟨_, ht⟩ | ⟨err, k, hstop, ht⟩ | ⟨_, _, _, _, rfl⟩
  · exact ⟨_, _, ht, .inl ⟨.inr rfl, rfl⟩⟩
  · exact ⟨_, _, ht, .inl ⟨.inl rfl, rfl⟩⟩
  · exact ⟨err, _, ht, .inr ⟨k, rfl, hstop⟩⟩
  · exact absurd rfl herr

/-- R184 (e): no error changes CRC, IBUF or the configuration. -/
theorem exec_error_keeps {i : Instr} {s t : State} (h : exec i s = .next t) (herr : t.status.err ≠ 0) :
    t.crc = s.crc ∧ t.ibuf = s.ibuf ∧ t.config = s.config := by
  cases i with
  | crcInit => cases h; exact absurd rfl herr
  | crcFeed b => cases h; exact absurd rfl herr
  | crcCompute n => rw [execCrcCompute_error h herr]; exact ⟨rfl, rfl, rfl⟩
  | buildQuery addr cmd sub n => rw [execBuildQuery_error h herr]; exact ⟨rfl, rfl, rfl⟩
  | decode n => obtain ⟨_, _, rfl, _⟩ := execDecode_error h herr; exact ⟨rfl, rfl, rfl⟩

/-- Settles O39, one clause for each operation that can fail; a field error of DECODE is that of the first failing field. -/
theorem errorEffects : Obligations.ErrorEffects := by
  refine ⟨fun w s hw => hostIssue_of_illegalWord hw s, fun n s t h herr => execCrcCompute_error h herr,
    fun addr cmd sub n s t h herr => execBuildQuery_error h herr, fun n s t h herr => ?_, fun i s t h herr => ?_⟩
  · obtain ⟨err, field, rfl, ⟨hcode, rfl⟩ | ⟨k, rfl, hstop⟩⟩ := execDecode_error h herr
    · exact ⟨rfl, rfl, .inl ⟨hcode.imp (congrArg errCode) (congrArg errCode), rfl⟩⟩
    · obtain ⟨e, he, hbefore, hfail⟩ := decodeFields_raised_first hstop
      exact ⟨rfl, rfl, .inr ⟨k, e, he, rfl, hbefore,
        hfail.imp (And.imp_left (congrArg errCode)) (And.imp_left (congrArg errCode))⟩⟩
  · obtain ⟨hcrc, hibuf, hconfig⟩ := exec_error_keeps h herr
    exact ⟨hcrc, hibuf, congrArg Config.lut hconfig⟩

/-! ## Which errors each operation can raise -/

theorem execCrcCompute_err {n : Word16} {s t : State} (h : execCrcCompute n s = .next t) :
    t.status.err = 0 ∨ t.status.err = 5 :=
  or_iff_not_imp_left.2 fun herr => by rw [execCrcCompute_error h herr]; rfl

theorem execBuildQuery_err {addr cmd sub : Byte} {n : Word16} {s t : State}
    (h : execBuildQuery addr cmd sub n s = .next t) : t.status.err = 0 ∨ t.status.err = 5 :=
  or_iff_not_imp_left.2 fun herr => by rw [execBuildQuery_error h herr]; rfl

theorem execDecode_err {n : Word16} {s t : State} (h : execDecode n s = .next t) :
    t.status.err = 0 ∨ t.status.err = 5 ∨ t.status.err = 1 ∨ t.status.err = 2 ∨ t.status.err = 4 := by
  refine or_iff_not_imp_left.2 fun herr => ?_
  obtain ⟨err, field, rfl, ⟨rfl | rfl, _⟩ | ⟨k, _, hstop⟩⟩ := execDecode_error h herr
  · exact .inr (.inl rfl)
  · exact .inl rfl
  · obtain ⟨rfl | rfl, _⟩ := decodeFields_raised hstop
    · exact .inr (.inr (.inl rfl))
    · exact .inr (.inr (.inr rfl))

/-- Every word of `BUILD_QUERY`'s code is legal: all its fields are operands (R71, R73). -/
theorem not_illegalWord_of_buildQuery_code {w : CmdWord} (hopc : cmdOpc w = 0x10#8) : ¬illegalWord w := by
  rw [illegalWord_iff_decodeCmd_error]
  simp [decodeCmd, hopc]

/-! ## The other ways to stop -/

theorem readOperand_error {s : State} {n : Word16} {i : Nat} (h : readOperand s n = .error i) :
    s.ibuf.read i = none := by
  obtain ⟨_, _, hnone, _⟩ := (Memory.readSeq_error_iff _ _ _ _).1 h
  exact hnone

theorem execCrcCompute_fault {n : Word16} {s : State} {f : Fault} (h : execCrcCompute n s = .fault f) :
    ∃ i, f = .unwrittenRead i ∧ readOperand s n = .error i := by
  unfold execCrcCompute at h
  split at h
  · cases h
  · split at h
    · next i hi => cases h; exact ⟨i, rfl, hi⟩
    · cases h

theorem execBuildQuery_fault {addr cmd sub : Byte} {n : Word16} {s : State} {f : Fault}
    (h : execBuildQuery addr cmd sub n s = .fault f) : ∃ i, f = .unwrittenRead i ∧ readOperand s n = .error i := by
  unfold execBuildQuery at h
  split at h
  · cases h
  · split at h
    · next i hi => cases h; exact ⟨i, rfl, hi⟩
    · cases h

theorem execDecode_fault {n : Word16} {s : State} {f : Fault} (h : execDecode n s = .fault f) :
    ∃ i, f = .unwrittenRead i ∧ decodeFields s.ibuf n.toNat respHeader 0 s.config.lut = .error (.unwritten i) := by
  unfold execDecode at h
  split at h
  · cases h
  split at h
  · cases h
  split at h
  · cases h
  · next i hi => cases h; exact ⟨i, rfl, hi⟩
  · cases h
  · cases h

/-- The only fault of an operation is an unwritten IBUF byte (R37). -/
theorem exec_fault {i : Instr} {s : State} {f : Fault} (h : exec i s = .fault f) :
    ∃ a, f = .unwrittenRead a ∧ s.ibuf.read a = none := by
  cases i with
  | crcInit => cases h
  | crcFeed b => cases h
  | crcCompute n =>
    obtain ⟨a, hf, ha⟩ := execCrcCompute_fault h
    exact ⟨a, hf, readOperand_error ha⟩
  | buildQuery addr cmd sub n =>
    obtain ⟨a, hf, ha⟩ := execBuildQuery_fault h
    exact ⟨a, hf, readOperand_error ha⟩
  | decode n =>
    obtain ⟨a, hf, ha⟩ := execDecode_fault h
    exact ⟨a, hf, (decodeFields_unwritten ha).1⟩

theorem execCrcCompute_ne_refused (n : Word16) (s : State) (r : Refusal) : execCrcCompute n s ≠ .refused r := by
  unfold execCrcCompute
  split
  · simp
  · cases readOperand s n <;> simp

theorem execBuildQuery_ne_refused (addr cmd sub : Byte) (n : Word16) (s : State) (r : Refusal) :
    execBuildQuery addr cmd sub n s ≠ .refused r := by
  unfold execBuildQuery
  split
  · simp
  · cases readOperand s n <;> simp

/-- `DECODE` is refused only where the field loop meets an entry that breaks R81. -/
theorem execDecode_refused {n : Word16} {s : State} {r : Refusal} (h : execDecode n s = .refused r) :
    decodeFields s.ibuf n.toNat respHeader 0 s.config.lut = .error .illFormed := by
  unfold execDecode at h
  split at h
  · cases h
  split at h
  · cases h
  split at h
  · cases h
  · cases h
  · next hstop => exact hstop
  · cases h

/-- Under a well-formed configuration every operation has a meaning. -/
theorem exec_ne_refused {s : State} (hwf : s.config.wf = true) (i : Instr) (r : Refusal) : exec i s ≠ .refused r := by
  intro h
  cases i with
  | crcInit => cases h
  | crcFeed b => cases h
  | crcCompute n => exact execCrcCompute_ne_refused n s r h
  | buildQuery addr cmd sub n => exact execBuildQuery_ne_refused addr cmd sub n s r h
  | decode n => exact decodeFields_ne_illFormed hwf n.toNat (execDecode_refused h)

/-- Settles O40: the codes of each operation's next states, then illegal words, faults and refusals. -/
theorem errorsPerOperation : Obligations.ErrorsPerOperation := by
  refine ⟨fun i s t h => ?_, fun w s t hw h => ?_, fun w hopc => not_illegalWord_of_buildQuery_code hopc,
    fun i s f h => exec_fault h, fun i s r hwf => exec_ne_refused hwf i r⟩
  · cases i with
    | crcInit => cases h; rfl
    | crcFeed b => cases h; rfl
    | crcCompute n => exact execCrcCompute_err h
    | buildQuery addr cmd sub n => exact execBuildQuery_err h
    | decode n => exact execDecode_err h
  · rw [hostIssue_of_illegalWord hw] at h
    cases h
    rfl

end Sys2Proof.Machine
end

section
/-! Proofs about reset and the immutable configuration (spec/70_reset_and_hazards.md R210, R220). -/

namespace Sys2Proof.Machine

/-! ## The configuration -/

/-- No operation writes the configuration (R214, R220). -/
theorem exec_keeps_config {i : Instr} {s t : State} (h : exec i s = .next t) : t.config = s.config := by
  cases i with
  | crcInit => cases h; rfl
  | crcFeed b => cases h; rfl
  | crcCompute n => rcases execCrcCompute_next h with ⟨_, rfl⟩ | ⟨_, _, _, rfl⟩ <;> rfl
  | buildQuery addr cmd sub n => rcases execBuildQuery_next h with ⟨_, rfl⟩ | ⟨_, _, _, rfl⟩ <;> rfl
  | decode n => rcases execDecode_next h with ⟨_, rfl⟩ | ⟨_, rfl⟩ | ⟨_, _, _, rfl⟩ | ⟨_, _, _, _, rfl⟩ <;> rfl

/-- No issue writes the configuration, whether its word is legal or not. -/
theorem hostIssue_keeps_config {w : CmdWord} {s t : State} (h : hostIssue w s = .next t) : t.config = s.config := by
  rcases hostIssue_next h with ⟨_, _, hexec⟩ | ⟨_, rfl⟩
  · exact exec_keeps_config hexec
  · rfl

/-- No move writes the configuration, reset included (R210's row of the LUT). -/
theorem hostMove_keeps_config {m : HostMove} {s t : State} (h : hostMove m s = .next t) : t.config = s.config := by
  cases m with
  | issue w => exact hostIssue_keeps_config h
  | readReg n => obtain ⟨_, _, rfl⟩ := hostReadReg_next h; rfl
  | writeIbuf i b => obtain ⟨_, rfl⟩ := hostWriteIbuf_next h; rfl
  | readObuf i => obtain ⟨_, _, _, rfl⟩ := hostReadObuf_next h; rfl
  | readResult k => obtain ⟨_, _, _, _, rfl⟩ := hostReadResult_next h; rfl
  | reset => cases h; rfl

/-- Settles O51: a step is idle or one move, and no move writes the configuration. -/
theorem configImmutable : Obligations.ConfigImmutable := fun s t h => by
  cases hmoves : s.moves with
  | nil =>
    rw [step_idle hmoves] at h
    cases h
    rfl
  | cons m ms =>
    rw [step_move hmoves] at h
    have hmove : t.config = { s with moves := ms }.config := hostMove_keeps_config h
    exact hmove

/-! ## Reset -/

/-- Every bit of the STATUS word is 0 after reset (R24 to R28). -/
theorem statusWord_resetCore (s : State) : statusWord s.resetCore.status = 0x0000 := by
  rw [State.resetCore_status]
  decide

/-- `OLEN` is 0 after reset, so no index of OBUF is below it (R33). -/
theorem moveAllowed_readObuf_resetCore (i : Nat) (s : State) : moveAllowed (.readObuf i) s.resetCore = false :=
  decide_eq_false (Nat.not_lt_zero i)

/-- VALID is 0 after reset, so no slot may be read (R34). -/
theorem moveAllowed_readResult_resetCore (k : Nat) (s : State) : moveAllowed (.readResult k) s.resetCore = false :=
  Bool.and_false _

/-- Settles O50: the registers and IBUF from the reset state's fields; OBUF and RESULT since their reads are not allowed. -/
theorem resetEffect : Obligations.ResetEffect := fun s =>
  ⟨s.resetCore, rfl, congrArg some (statusWord_resetCore s), rfl, rfl, rfl, rfl, fun _ => rfl,
    fun i => hostMove_ne_next_of_not_allowed (moveAllowed_readObuf_resetCore i s),
    fun k => hostMove_ne_next_of_not_allowed (moveAllowed_readResult_resetCore k s), rfl⟩

end Sys2Proof.Machine
end

section
/-! Proofs about encodings (spec/30_encoding.md): a command word and its operation determine each other (R70, R71), its
issue runs the operation, and the fields of a LUT word (R80). -/

namespace Sys2Proof.Machine

open Sys2Proof.Laws

/-! ## Command words and their operations -/

/-- A command word is its five fields, packed (R70). -/
theorem packCmd_fields (w : CmdWord) : packCmd (cmdOpc w) (cmdP0 w) (cmdP1 w) (cmdP2 w) (cmdLen w) = w := by
  have hjoin (start m n : Nat) :
      w.extractLsb' (start + m) n ++ w.extractLsb' start m = w.extractLsb' start (n + m) :=
    BitVec.extractLsb'_append_extractLsb'_eq_extractLsb' rfl
  unfold packCmd cmdOpc cmdP0 cmdP1 cmdP2 cmdLen
  rw [hjoin 24 8 16, hjoin 16 8 24, hjoin 8 8 32, hjoin 0 8 40]
  exact BitVec.extractLsb'_eq_self

/-- A decoder arm that checks its "must be 0" fields answers its own operation, and only where the check passes. -/
theorem decoderArm_ok_iff {p : Prop} [Decidable p] (i j : Instr) (d : DecodeError) :
    (if p then .ok i else .error d : Except DecodeError Instr) = .ok j ↔ p ∧ i = j := by
  by_cases hp : p <;> simp [hp]

/-- A word decodes to the operation whose row of R71 it has the fields of. -/
theorem decodeCmd_of_fieldsAsTable {w : CmdWord} {i : Instr} (h : ZeroFields.fieldsAsTable i w) :
    decodeCmd w = .ok i := by
  cases i <;>
    (obtain ⟨hopc, hp0, hp1, hp2, hlen⟩ := h
     simp [decodeCmd, hopc, hp0, hp1, hp2, hlen])

/-- A word that decodes has the fields of its operation's row of R71. -/
theorem fieldsAsTable_of_decodeCmd {w : CmdWord} {i : Instr} (h : decodeCmd w = .ok i) :
    ZeroFields.fieldsAsTable i w := by
  unfold decodeCmd at h
  split at h
  · next hopc =>
    obtain ⟨⟨hp0, hp1, hp2, hlen⟩, rfl⟩ := (decoderArm_ok_iff _ _ _).1 h
    exact ⟨hopc, hp0, hp1, hp2, hlen⟩
  split at h
  · next hopc =>
    obtain ⟨⟨hp1, hp2, hlen⟩, rfl⟩ := (decoderArm_ok_iff _ _ _).1 h
    exact ⟨hopc, rfl, hp1, hp2, hlen⟩
  split at h
  · next hopc =>
    obtain ⟨⟨hp0, hp1, hp2⟩, rfl⟩ := (decoderArm_ok_iff _ _ _).1 h
    exact ⟨hopc, hp0, hp1, hp2, rfl⟩
  split at h
  · next hopc =>
    cases h
    exact ⟨hopc, rfl, rfl, rfl, rfl⟩
  split at h
  · next hopc =>
    obtain ⟨⟨hp0, hp1, hp2⟩, rfl⟩ := (decoderArm_ok_iff _ _ _).1 h
    exact ⟨hopc, hp0, hp1, hp2, rfl⟩
  · cases h

/-- The row of R71 gives every field, so it gives the word. -/
theorem encodeCmd_of_fieldsAsTable {w : CmdWord} {i : Instr} (h : ZeroFields.fieldsAsTable i w) : encodeCmd i = w := by
  rw [← packCmd_fields w]
  cases i <;>
    (obtain ⟨hopc, hp0, hp1, hp2, hlen⟩ := h
     rw [hopc, hp0, hp1, hp2, hlen]
     rfl)

/-- Settles O1: an operation's word has the fields of the operation's row of R71. -/
theorem decodeEncodeRoundTrip : Obligations.DecodeEncodeRoundTrip := fun i => by
  refine decodeCmd_of_fieldsAsTable ?_
  cases i with
  | crcInit => exact ZeroFields.crcInit
  | crcFeed b => exact ZeroFields.crcFeed b
  | crcCompute n => exact ZeroFields.crcCompute n
  | buildQuery addr cmd sub n => exact ZeroFields.buildQuery addr cmd sub n
  | decode n => exact ZeroFields.decode n

/-- Settles O2, through the fields of the word. -/
theorem encodeDecodeRoundTrip : Obligations.EncodeDecodeRoundTrip := fun _ _ h =>
  encodeCmd_of_fieldsAsTable (fieldsAsTable_of_decodeCmd h)

/-- Settles O4, each word by decoding it. -/
theorem decodeWordsFromSpec : Obligations.DecodeWordsFromSpec := by
  unfold Obligations.DecodeWordsFromSpec
  decide

/-! ## The issue of a command word -/

/-- The issue of a legal word runs its operation (R20). -/
theorem hostIssue_of_decodeCmd {w : CmdWord} {i : Instr} (h : decodeCmd w = .ok i) (s : State) :
    hostIssue w s = exec i s := by
  simp [hostIssue, h]

/-- A 48-bit word read as a table row of 48 bits is issued as it stands. -/
theorem issueTableWord_toNat (w : CmdWord) : issueTableWord 48 w.toNat = .issue w := by
  unfold issueTableWord
  rw [Nat.mod_eq_of_lt w.isLt, BitVec.ofNat_toNat, BitVec.setWidth_eq]

/-- Settles O7: a step makes the pending move, the issue of a legal word. -/
theorem stepRunsIssuedWord : Obligations.StepRunsIssuedWord := fun s w ms i hmoves hdecode => by
  rw [step_move hmoves]
  exact hostIssue_of_decodeCmd hdecode _

/-- Settles O8: the word placed is the operation's own, and it decodes to the operation. -/
theorem fetchWordRuns : Obligations.FetchWordRuns := fun s i =>
  stepRunsIssuedWord (s.withFetchWord 48 (encodeCmd i).toNat) (encodeCmd i) s.moves i
    (by rw [State.withFetchWord_moves, issueTableWord_toNat]) (decodeEncodeRoundTrip i)

/-- Settles O9: with no move pending a step is idle. -/
theorem idleStepKeepsState : Obligations.IdleStepKeepsState := fun _ => step_idle

/-! ## The fields of a LUT word -/

section LutFields

variable (kind : BitVec 3) (scale : BitVec 2) (width : BitVec 5) (cat : BitVec 3) (primary : Bool)

theorem lutKind_packLut : lutKind (packLut kind scale width cat primary) = kind :=
  BitVec.extractLsb'_append_eq_right

theorem lutScale_packLut : lutScale (packLut kind scale width cat primary) = scale := by
  unfold lutScale packLut
  rw [BitVec.extractLsb'_append_eq_of_le (le_refl 3)]
  exact BitVec.extractLsb'_append_eq_right

theorem lutWidth_packLut : lutWidth (packLut kind scale width cat primary) = width.toNat := by
  unfold lutWidth packLut
  rw [BitVec.extractLsb'_append_eq_of_le (by decide : 3 ≤ 5), BitVec.extractLsb'_append_eq_of_le (le_refl 2)]
  exact congrArg BitVec.toNat BitVec.extractLsb'_append_eq_right

theorem lutCategory_packLut : lutCategory (packLut kind scale width cat primary) = cat := by
  unfold lutCategory packLut
  rw [BitVec.extractLsb'_append_eq_of_le (by decide : 3 ≤ 10), BitVec.extractLsb'_append_eq_of_le (by decide : 2 ≤ 7),
    BitVec.extractLsb'_append_eq_of_le (le_refl 5)]
  exact BitVec.extractLsb'_append_eq_right

theorem lutPrimary_packLut : lutPrimary (packLut kind scale width cat primary) = primary := by
  simp only [lutPrimary, packLut, BitVec.getLsbD_append]
  simp

theorem lutReserved_packLut : lutReserved (packLut kind scale width cat primary) = 0 := by
  unfold lutReserved packLut
  rw [BitVec.extractLsb'_append_eq_of_le (by decide : 3 ≤ 14), BitVec.extractLsb'_append_eq_of_le (by decide : 2 ≤ 11),
    BitVec.extractLsb'_append_eq_of_le (by decide : 5 ≤ 9), BitVec.extractLsb'_append_eq_of_le (by decide : 3 ≤ 4)]
  exact BitVec.extractLsb'_append_eq_left

end LutFields

/-- Settles O5, field by field. -/
theorem lutWordFieldsRoundTrip : Obligations.LutWordFieldsRoundTrip := fun kind scale width cat primary =>
  ⟨lutKind_packLut kind scale width cat primary, lutScale_packLut kind scale width cat primary,
    lutWidth_packLut kind scale width cat primary, lutCategory_packLut kind scale width cat primary,
    lutPrimary_packLut kind scale width cat primary, lutReserved_packLut kind scale width cat primary⟩

end Sys2Proof.Machine
end

section
/-! Proofs about what operations and moves change and what they leave (spec/60_exceptions.md section 2, spec/20_memory.md
sections 2 and 4): the frame of every operation, the next state of every move, and what the host's reads return. -/

namespace Sys2Proof.Machine

/-! ## The frames of the operations -/

theorem execCrcCompute_frame {n : Word16} {s t : State} (h : execCrcCompute n s = .next t) :
    t = { s with crc := t.crc, status := t.status } := by
  rcases execCrcCompute_next h with ⟨_, rfl⟩ | ⟨_, _, _, rfl⟩ <;> rfl

theorem execBuildQuery_frame {addr cmd sub : Byte} {n : Word16} {s t : State}
    (h : execBuildQuery addr cmd sub n s = .next t) :
    t = { s with obuf := t.obuf, olen := t.olen, crc := t.crc, status := t.status } := by
  rcases execBuildQuery_next h with ⟨_, rfl⟩ | ⟨_, _, _, rfl⟩ <;> rfl

theorem execDecode_frame {n : Word16} {s t : State} (h : execDecode n s = .next t) :
    t = { s with result := t.result, status := t.status } := by
  rcases execDecode_next h with ⟨_, rfl⟩ | ⟨_, rfl⟩ | ⟨_, _, _, rfl⟩ | ⟨_, _, _, _, rfl⟩ <;> rfl

/-- `OLEN` holds the frame's length without wrapping (R30). -/
theorem frameLength_toNat {n : Nat} (hn : n ≤ maxPayload) :
    (BitVec.ofNat 16 (n + frameOverhead)).toNat = n + frameOverhead := by
  have : n + frameOverhead < 2 ^ 16 := Nat.lt_of_le_of_lt (Nat.add_le_add_right hn frameOverhead) (by decide)
  rw [BitVec.toNat_ofNat, Nat.mod_eq_of_lt this]

theorem readOperand_length {s : State} {n : Word16} {bs : List Byte} (h : readOperand s n = .ok bs) :
    bs.length = n.toNat :=
  ((readOperand_ok_iff s n bs).1 h).1

/-- `OBUF` after a sequence is written from index 0: the sequence, then the old bytes. -/
theorem read_writeSeq_zero (m : Memory) (bs : List Byte) (a : Nat) :
    (m.writeSeq 0 bs).read a = if a < bs.length then bs[a]? else m.read a := by
  rw [Memory.read_writeSeq]
  simp

/-- `BUILD_QUERY` leaves the `OBUF` bytes from the new `OLEN` on as they were (R121). -/
theorem execBuildQuery_keeps_obuf_above {addr cmd sub : Byte} {n : Word16} {s t : State} {a : Nat}
    (h : execBuildQuery addr cmd sub n s = .next t) (ha : t.olen.toNat ≤ a) : t.obuf.read a = s.obuf.read a := by
  rcases execBuildQuery_next h with ⟨_, rfl⟩ | ⟨hn, p, hp, rfl⟩
  · rfl
  · have hlength : (pack addr cmd sub p).length ≤ a := by
      rw [pack_length, readOperand_length hp, ← frameLength_toNat hn]
      exact ha
    exact (read_writeSeq_zero _ _ _).trans (if_neg (Nat.not_lt.2 hlength))

/-- Settles O38, operation by operation. -/
theorem operationFrames : Obligations.OperationFrames := fun i s t h => by
  cases i with
  | crcInit => cases h; exact ⟨rfl, rfl⟩
  | crcFeed b => cases h; exact ⟨rfl, rfl⟩
  | crcCompute n => exact ⟨execCrcCompute_frame h, exec_keeps_valid (fun _ => by simp) h⟩
  | buildQuery addr cmd sub n =>
    exact ⟨execBuildQuery_frame h, exec_keeps_valid (fun _ => by simp) h,
      fun _ ha => execBuildQuery_keeps_obuf_above h ha⟩
  | decode n => exact execDecode_frame h

/-! ## The next state of a move -/

/-- What a move can do: an issue, reset, the write of one `IBUF` byte, or a read, which adds a reply. -/
theorem hostMove_next {m : HostMove} {s t : State} (h : hostMove m s = .next t) :
    (∃ w, m = .issue w ∧ hostIssue w s = .next t) ∨ (m = .reset ∧ t = s.resetCore) ∨
    (∃ i b, m = .writeIbuf i b ∧ i < s.config.ibufSize ∧ t = { s with ibuf := s.ibuf.write i b }) ∨
    (∃ r, t = s.reply r) := by
  cases m with
  | issue w => exact .inl ⟨w, rfl, h⟩
  | readReg n =>
    obtain ⟨_, _, ht⟩ := hostReadReg_next h
    exact .inr (.inr (.inr ⟨_, ht⟩))
  | writeIbuf i b =>
    obtain ⟨hi, ht⟩ := hostWriteIbuf_next h
    exact .inr (.inr (.inl ⟨i, b, rfl, hi, ht⟩))
  | readObuf i =>
    obtain ⟨_, _, _, ht⟩ := hostReadObuf_next h
    exact .inr (.inr (.inr ⟨_, ht⟩))
  | readResult k =>
    obtain ⟨_, _, _, _, ht⟩ := hostReadResult_next h
    exact .inr (.inr (.inr ⟨_, ht⟩))
  | reset =>
    cases h
    exact .inr (.inl ⟨rfl, rfl⟩)

/-- A move that is neither an issue nor reset changes at most `IBUF` and what the host has read (R63). -/
theorem hostMove_quiet {m : HostMove} {s t : State} (hissue : ∀ w, m ≠ .issue w) (hreset : m ≠ .reset)
    (h : hostMove m s = .next t) : ∃ mem rs, t = { s with ibuf := mem, replies := rs } := by
  rcases hostMove_next h with ⟨w, rfl, _⟩ | ⟨rfl, _⟩ | ⟨i, b, _, _, rfl⟩ | ⟨r, rfl⟩
  · exact absurd rfl (hissue w)
  · exact absurd rfl hreset
  · exact ⟨_, _, rfl⟩
  · exact ⟨_, _, rfl⟩

/-- The same of any moves among which there is no issue and no reset. -/
theorem runMoves_quiet {ms : List HostMove} {t u : State} (hms : ∀ m ∈ ms, (∀ w, m ≠ .issue w) ∧ m ≠ .reset)
    (h : runMoves ms t = .next u) : ∃ mem rs, u = { t with ibuf := mem, replies := rs } := by
  induction ms generalizing t with
  | nil =>
    cases h
    exact ⟨_, _, rfl⟩
  | cons m ms ih =>
    obtain ⟨hm, hrest⟩ := List.forall_mem_cons.1 hms
    obtain ⟨v, hv, hu⟩ := runMoves_cons_next h
    obtain ⟨_, _, rfl⟩ := hostMove_quiet hm.1 hm.2 hv
    obtain ⟨mem, rs, rfl⟩ := ih hrest hu
    exact ⟨mem, rs, rfl⟩

/-- `DECODE` does not write CRC (R29). -/
theorem execDecode_keeps_crc {n : Word16} {s t : State} (h : execDecode n s = .next t) : t.crc = s.crc := by
  rw [execDecode_frame h]

/-- Settles O42: of the moves only reset and an issue touch CRC, and of the operations only a successful one other than
`DECODE`. -/
theorem crcWriters : Obligations.CrcWriters := fun m s t h hcrc => by
  rcases hostMove_next h with ⟨w, rfl, hw⟩ | ⟨rfl, rfl⟩ | ⟨_, _, _, _, rfl⟩ | ⟨_, rfl⟩
  · rcases hostIssue_next hw with ⟨i, hi, hexec⟩ | ⟨_, rfl⟩
    · refine .inr ⟨w, i, rfl, hi, fun n hn => hcrc ?_, by_contra fun herr => hcrc (exec_error_keeps hexec herr).1⟩
      subst hn
      exact execDecode_keeps_crc hexec
    · exact absurd rfl hcrc
  · exact .inl ⟨rfl, rfl⟩
  · exact absurd rfl hcrc
  · exact absurd rfl hcrc

/-! ## Register reads -/

/-- A register of the map is returned, unless it is STATUS and its ERR is reserved (R36, R51). -/
theorem hostReadReg_returns {n : Nat} {s : State} {v : Word16} (hv : readReg s n = some v)
    (hcode : n = 0 → errOfCode s.status.err ≠ none) : hostReadReg n s = .next (s.reply (.reg v)) := by
  have hlegal : ¬(n = 0 ∧ errOfCode s.status.err = none) := fun ⟨hn, hnone⟩ => hcode hn hnone
  simp only [hostReadReg, hv, if_neg hlegal]

/-- A read of STATUS that is answered met an ERR of the table (R180). -/
theorem errOfCode_of_hostReadReg_next {n : Nat} {s t : State} (h : hostReadReg n s = .next t) (hn : n = 0) :
    errOfCode s.status.err ≠ none := fun hnone => by
  obtain ⟨v, hv, _⟩ := hostReadReg_next h
  simp only [hostReadReg, hv, if_pos (And.intro hn hnone)] at h
  cases h

/-- A read past the map's end is no move (R56). -/
theorem hostReadReg_of_le {n : Nat} (hn : 5 ≤ n) (s : State) : hostReadReg n s = .fault (.noMoveReadReg n) := by
  simp only [hostReadReg, readReg_eq_none_of_le hn]

/-- The map's last four registers are returned in every state (R36). -/
theorem hostMove_readReg_of_ne_zero {n : Nat} {s : State} {v : Word16} (hn : n ≠ 0) (hv : readReg s n = some v) :
    hostMove (.readReg n) s = .next { s with replies := .reg v :: s.replies } :=
  hostReadReg_returns hv fun hzero => absurd hzero hn

theorem readReg_nFields (s : State) : readReg s 3 = some (BitVec.ofNat 16 s.config.lut.length) := by
  rw [Config.lut, List.length_map]
  rfl

/-- Settles O44, register by register. -/
theorem readRegReturns : Obligations.ReadRegReturns := fun s => by
  refine ⟨fun ⟨e, he⟩ => ?_, hostMove_readReg_of_ne_zero (by decide) rfl, hostMove_readReg_of_ne_zero (by decide) rfl,
    hostMove_readReg_of_ne_zero (by decide) (readReg_nFields s), hostMove_readReg_of_ne_zero (by decide) rfl,
    fun n hn => hostReadReg_of_le hn s⟩
  have hcode : errOfCode s.status.err ≠ none := by simp [he]
  have hreturns : hostReadReg 0 s = .next (s.reply (.reg (statusWord s.status))) := hostReadReg_returns rfl fun _ => hcode
  exact hreturns

/-! ## Memory moves -/

/-- Settles O45, from the laws of a byte's write. -/
theorem writeIbufWrites : Obligations.WriteIbufWrites := fun i b s hi =>
  ⟨s.ibuf.write i b, if_pos hi, Memory.read_write_same _ _ _, fun _ ha => Memory.read_write_other _ b ha⟩

/-- A frame in `OBUF` has a byte at every index below `OLEN` (R30). -/
theorem ObufInv.exists_byte {s : State} (hs : ObufInv s) {i : Nat} (hi : i < s.olen.toNat) :
    ∃ b, s.obuf.read i = some b := by
  rcases hs with hzero | ⟨addr, cmd, sub, p, _, holen, hframe⟩
  · rw [hzero] at hi
    exact absurd hi (Nat.not_lt_zero i)
  · have hlength : i < (pack addr cmd sub p).length := by
      rw [pack_length, ← holen]
      exact hi
    exact ⟨_, (hframe i hi).trans (List.getElem?_eq_getElem hlength)⟩

/-- A whole reading has a slot for every catalog entry (R34). -/
theorem ResultInv.exists_slot {s : State} (hs : ResultInv s) (hvalid : s.status.valid = true) {k : Nat}
    (hk : k < s.config.nFields) : ∃ r, s.result[k]? = some r := by
  have hlength : s.config.lut.length = s.result.length := (hs hvalid).length_eq
  have hindex : k < s.result.length := by
    rw [← hlength, Config.lut, List.length_map]
    exact hk
  exact ⟨_, List.getElem?_eq_getElem hindex⟩

/-- Settles O46: the frame has a byte there. -/
theorem readObufReturns : Obligations.ReadObufReturns := fun _ _ hs hi => by
  obtain ⟨b, hb⟩ := hs.exists_byte hi
  exact ⟨b, hb, hostReadObuf_returns hi hb⟩

/-- Settles O47: the reading has a slot there. -/
theorem readResultReturns : Obligations.ReadResultReturns := fun _ _ hs hk hvalid => by
  obtain ⟨r, hr⟩ := hs.exists_slot hvalid hk
  exact ⟨r, hr, hostReadResult_returns hk hvalid hr⟩

/-! ## Reads have no effect -/

/-- A read adds a reply, and its value depends neither on `IBUF` nor on what the host has read (R63). -/
theorem hostRead_next {m : HostMove} {s t : State}
    (hread : (∃ n, m = .readReg n) ∨ (∃ i, m = .readObuf i) ∨ (∃ k, m = .readResult k)) (h : hostMove m s = .next t) :
    ∃ r, t = s.reply r ∧ ∀ mem rs, hostMove m { s with ibuf := mem, replies := rs } =
      .next (State.reply r { s with ibuf := mem, replies := rs }) := by
  rcases hread with ⟨n, rfl⟩ | ⟨i, rfl⟩ | ⟨k, rfl⟩
  · obtain ⟨v, hv, ht⟩ := hostReadReg_next h
    have hcode : n = 0 → errOfCode s.status.err ≠ none := errOfCode_of_hostReadReg_next h
    exact ⟨.reg v, ht, fun _ _ => hostReadReg_returns hv hcode⟩
  · obtain ⟨hi, b, hb, ht⟩ := hostReadObuf_next h
    exact ⟨.byte b, ht, fun _ _ => hostReadObuf_returns hi hb⟩
  · obtain ⟨hk, hvalid, r, hr, ht⟩ := hostReadResult_next h
    exact ⟨.slot r, ht, fun _ _ => hostReadResult_returns hk hvalid hr⟩

/-- Settles O49: a read repeated after quiet moves, the write of one byte, and the quiet moves in general. -/
theorem readsHaveNoEffect : Obligations.ReadsHaveNoEffect := by
  refine ⟨fun m s t hread h => ?_, fun i b s t h => ?_, fun m s t hissue hreset h => ?_⟩
  · obtain ⟨r, rfl, hagain⟩ := hostRead_next hread h
    refine ⟨r, rfl, fun ms u hms hu => ?_⟩
    obtain ⟨mem, rs, rfl⟩ := runMoves_quiet hms hu
    exact hagain mem rs
  · obtain ⟨_, rfl⟩ := hostWriteIbuf_next h
    exact ⟨rfl, fun _ ha => Memory.read_write_other _ b ha⟩
  · obtain ⟨mem, rs, rfl⟩ := hostMove_quiet hissue hreset h
    exact ⟨rfl, rfl, rfl, rfl, rfl⟩

end Sys2Proof.Machine
end

section
/-! Proofs about the invariants of the machine (spec/20_memory.md sections 1 and 4, spec/10_state.md section 3): each is met
after reset and kept by every step, and from a state that meets them all a host that does its duty is always answered. -/

namespace Sys2Proof.Machine

/-! ## A step keeps what every move keeps -/

/-- A property that reads, `IBUF` writes inside the buffer, reset, illegal issues and operations keep is kept by every move. -/
theorem hostMove_keeps {P : State → Prop}
    (hreply : ∀ s r, P s → P (s.reply r))
    (hwrite : ∀ s i b, i < s.config.ibufSize → P s → P { s with ibuf := s.ibuf.write i b })
    (hreset : ∀ s, P s → P s.resetCore)
    (hillegal : ∀ s, P s → P (s.raise .illegalCommand 0))
    (hexec : ∀ i s t, exec i s = .next t → P s → P t)
    {m : HostMove} {s t : State} (h : hostMove m s = .next t) (hs : P s) : P t := by
  rcases hostMove_next h with ⟨w, _, hw⟩ | ⟨_, rfl⟩ | ⟨i, b, _, hi, rfl⟩ | ⟨r, rfl⟩
  · rcases hostIssue_next hw with ⟨i, _, hi⟩ | ⟨_, rfl⟩
    · exact hexec i s t hi hs
    · exact hillegal s hs
  · exact hreset s hs
  · exact hwrite s i b hi hs
  · exact hreply s r hs

/-- A step is idle, or it makes one move on the state without it. -/
theorem step_keeps {P : State → Prop} (hmoves : ∀ s ms, P s → P { s with moves := ms })
    (hmove : ∀ {m s t}, hostMove m s = .next t → P s → P t) {s t : State} (hs : P s) (h : step s = .next t) : P t := by
  cases hnext : s.moves with
  | nil =>
    rw [step_idle hnext] at h
    cases h
    exact hs
  | cons m ms =>
    rw [step_move hnext] at h
    exact hmove h (hmoves s ms hs)

/-! ## The byte arrays -/

theorem memoryInv_resetCore (s : State) : MemoryInv s.resetCore :=
  ⟨.nil, fun _ hc => absurd hc List.not_mem_nil, .nil, fun _ hc => absurd hc List.not_mem_nil⟩

/-- A whole frame fits in `OBUF` (R33). -/
theorem pack_length_le_obufSize {addr cmd sub : Byte} {p : List Byte} (hp : p.length ≤ maxPayload) :
    (pack addr cmd sub p).length ≤ obufSize := by
  rw [pack_length]
  exact Nat.add_le_add_right hp frameOverhead

/-- Only `BUILD_QUERY` writes a byte array, and it writes one frame into `OBUF`. -/
theorem exec_keeps_memoryInv {i : Instr} {s t : State} (h : exec i s = .next t) (hs : MemoryInv s) : MemoryInv t := by
  cases i with
  | crcInit => cases h; exact hs
  | crcFeed b => cases h; exact hs
  | crcCompute n => rw [execCrcCompute_frame h]; exact hs
  | decode n => rw [execDecode_frame h]; exact hs
  | buildQuery addr cmd sub n =>
    rcases execBuildQuery_next h with ⟨_, rfl⟩ | ⟨hn, p, hp, rfl⟩
    · exact hs
    · obtain ⟨hibuf, hibufBelow, hobuf, hobufBelow⟩ := hs
      have hfits : 0 + (pack addr cmd sub p).length ≤ obufSize := by
        rw [Nat.zero_add]
        exact pack_length_le_obufSize (readOperand_length hp ▸ hn)
      exact ⟨hibuf, hibufBelow, Memory.writeSeq_wf hobuf 0 _, Memory.writeSeq_below hobufBelow hfits⟩

theorem hostMove_keeps_memoryInv {m : HostMove} {s t : State} : hostMove m s = .next t → MemoryInv s → MemoryInv t :=
  hostMove_keeps (fun _ _ hs => hs)
    (fun _ i b hi ⟨hibuf, hibufBelow, hobuf, hobufBelow⟩ =>
      ⟨Memory.write_wf hibuf i b, Memory.write_below hibufBelow hi b, hobuf, hobufBelow⟩)
    (fun s _ => memoryInv_resetCore s) (fun _ hs => hs) (fun _ _ _ => exec_keeps_memoryInv)

/-- Settles O52, from the moves: `IBUF` writes inside the buffer and `BUILD_QUERY`'s frame. -/
theorem stepKeepsMemories : Obligations.StepKeepsMemories := fun _ _ =>
  step_keeps (fun _ _ hs => hs) hostMove_keeps_memoryInv

/-! ## The frame in `OBUF` -/

/-- Only `BUILD_QUERY` writes `OLEN` and `OBUF`: it leaves `OLEN` 0, or the whole frame. -/
theorem exec_keeps_obufInv {i : Instr} {s t : State} (h : exec i s = .next t) (hs : ObufInv s) : ObufInv t := by
  cases i with
  | crcInit => cases h; exact hs
  | crcFeed b => cases h; exact hs
  | crcCompute n => rw [execCrcCompute_frame h]; exact hs
  | decode n => rw [execDecode_frame h]; exact hs
  | buildQuery addr cmd sub n =>
    rcases execBuildQuery_next h with ⟨_, rfl⟩ | ⟨hn, p, hp, rfl⟩
    · exact .inl rfl
    · have hlength : p.length = n.toNat := readOperand_length hp
      have holen : (BitVec.ofNat 16 (n.toNat + frameOverhead)).toNat = p.length + frameOverhead := by
        rw [frameLength_toNat hn, hlength]
      refine .inr ⟨addr, cmd, sub, p, hlength ▸ hn, holen, fun i hi => ?_⟩
      have hinside : i < (pack addr cmd sub p).length := by
        rw [pack_length, ← holen]
        exact hi
      exact (read_writeSeq_zero _ _ _).trans (if_pos hinside)

theorem hostMove_keeps_obufInv {m : HostMove} {s t : State} : hostMove m s = .next t → ObufInv s → ObufInv t :=
  hostMove_keeps (fun _ _ hs => hs) (fun _ _ _ _ hs => hs) (fun _ _ => .inl rfl) (fun _ hs => hs)
    (fun _ _ _ => exec_keeps_obufInv)

/-- Settles O53, from the moves: a frame appears whole or not at all. -/
theorem stepKeepsFrame : Obligations.StepKeepsFrame := fun _ _ =>
  step_keeps (fun _ _ hs => hs) hostMove_keeps_obufInv

/-! ## STATUS -/

/-- An outcome with no field index is legal; SHORT_RESPONSE needs VALID 0 (R27, R184 d). -/
theorem statusInv_raise_zero {s : State} {e : Err} (hcorrupt : e ≠ .corruptFrame) (htruncated : e ≠ .truncatedFrame)
    (hencoding : e ≠ .encodingError) (hvalid : e = .shortResponse → s.status.valid = false) :
    StatusInv (s.raise e 0) := by
  refine ⟨⟨e, hcorrupt, rfl⟩, fun _ _ => rfl, ?_, ?_⟩
  · simp [htruncated, hencoding]
  · simpa [htruncated, hencoding] using hvalid

/-- A field error is legal at the index of a catalog field while VALID is 0 (R27, R184 d). -/
theorem statusInv_raise_field {s : State} {e : Err} {k : Nat} (he : e = .truncatedFrame ∨ e = .encodingError)
    (hk : k < s.config.nFields) (hvalid : s.status.valid = false) : StatusInv (s.raise e (BitVec.ofNat 8 k)) := by
  have hindex : (BitVec.ofNat 8 k).toNat < s.config.nFields := by
    rw [BitVec.toNat_ofNat]
    exact Nat.lt_of_le_of_lt (Nat.mod_le _ _) hk
  refine ⟨⟨e, ?_, rfl⟩, ?_, fun _ => hindex, fun _ => hvalid⟩
  · rcases he with rfl | rfl <;> simp
  · rcases he with rfl | rfl <;> simp

theorem statusInv_complete (s : State) : StatusInv s.complete :=
  statusInv_raise_zero (e := .ok) (by simp) (by simp) (by simp) (by simp)

theorem statusInv_raise_preconditionViolation (s : State) : StatusInv (s.raise .preconditionViolation 0) :=
  statusInv_raise_zero (by simp) (by simp) (by simp) (by simp)

theorem statusInv_raise_illegalCommand (s : State) : StatusInv (s.raise .illegalCommand 0) :=
  statusInv_raise_zero (by simp) (by simp) (by simp) (by simp)

/-- Every operation leaves a legal STATUS, whatever it was before. -/
theorem statusInv_of_exec {i : Instr} {s t : State} (h : exec i s = .next t) : StatusInv t := by
  cases i with
  | crcInit => cases h; exact statusInv_complete _
  | crcFeed b => cases h; exact statusInv_complete _
  | crcCompute n =>
    rcases execCrcCompute_next h with ⟨_, rfl⟩ | ⟨_, _, _, rfl⟩
    · exact statusInv_raise_preconditionViolation _
    · exact statusInv_complete _
  | buildQuery addr cmd sub n =>
    rcases execBuildQuery_next h with ⟨_, rfl⟩ | ⟨_, _, _, rfl⟩
    · exact statusInv_raise_preconditionViolation _
    · exact statusInv_complete _
  | decode n =>
    rcases execDecode_next h with ⟨_, rfl⟩ | ⟨_, rfl⟩ | ⟨e, k, hstop, rfl⟩ | ⟨_, _, _, _, rfl⟩
    · exact statusInv_raise_preconditionViolation _
    · exact statusInv_raise_zero (by simp) (by simp) (by simp) (fun _ => rfl)
    · obtain ⟨he, _, hk⟩ := decodeFields_raised hstop
      rw [Nat.zero_add, Config.lut, List.length_map] at hk
      exact statusInv_raise_field he hk rfl
    · exact statusInv_complete _

theorem statusInv_resetCore (s : State) : StatusInv s.resetCore :=
  ⟨⟨.ok, by simp, rfl⟩, fun _ _ => rfl, by simp [errCode], fun _ => rfl⟩

theorem hostMove_keeps_statusInv {m : HostMove} {s t : State} : hostMove m s = .next t → StatusInv s → StatusInv t :=
  hostMove_keeps (fun _ _ hs => hs) (fun _ _ _ _ hs => hs) (fun s _ => statusInv_resetCore s)
    (fun s _ => statusInv_raise_illegalCommand s) (fun _ _ _ h _ => statusInv_of_exec h)

/-- Settles O54, from the moves: each issue and reset write a legal STATUS, the others write none. -/
theorem stepKeepsStatus : Obligations.StepKeepsStatus := fun _ _ =>
  step_keeps (fun _ _ hs => hs) hostMove_keeps_statusInv

/-! ## The slots of a reading -/

theorem byteAt_lt (s : List Byte) (i : Nat) : byteAt s i < 256 := (s.getD i 0).isLt

theorem be16_lt (s : List Byte) (i : Nat) : be16 s i < 256 ^ 2 := by
  have h0 := byteAt_lt s i
  have h1 := byteAt_lt s (i + 1)
  unfold be16
  omega

theorem be32_lt (s : List Byte) (i : Nat) : be32 s i < 256 ^ 4 := by
  have h0 := byteAt_lt s i
  have h1 := byteAt_lt s (i + 1)
  have h2 := byteAt_lt s (i + 2)
  have h3 := byteAt_lt s (i + 3)
  unfold be32
  omega

/-- An integer of the field's width makes a slot that fits the entry (R147 to R150). -/
theorem slotFits_numericSlot {e : LutWord} {x : Nat} (hkind : fieldKind (lutKind e) ≠ some .text)
    (hx : x < 256 ^ lutWidth e) : slotFits e (numericSlot e x) := by
  have hraw : (numericSlot e x).raw.toNat ≤ x := (BitVec.toNat_ofNat x 32).trans_le (Nat.mod_le _ _)
  exact ⟨rfl, rfl, List.length_replicate, fun b hb => (List.mem_replicate.1 (List.mem_of_mem_drop hb)).2,
    fun htext => absurd htext hkind, fun _ => ⟨rfl, hraw.trans_lt hx⟩⟩

/-- R81's row of the text kind. -/
theorem entryLegal_text {e : LutWord} (hlegal : entryLegal e = true) (hkind : fieldKind (lutKind e) = some .text) :
    lutWidth e ≤ 18 ∧ lutScale e = 0 := by
  simp only [entryLegal, hkind, Bool.and_eq_true, Bool.or_eq_true, beq_iff_eq] at hlegal
  obtain ⟨hwidth, hscale⟩ := hlegal
  exact ⟨by omega, hscale⟩

/-- A text field whose bytes are all below 0x80 makes a slot that fits the entry (R151 to R153). -/
theorem slotFits_textSlot {e : LutWord} {bs : List Byte} (hlegal : entryLegal e = true)
    (hkind : fieldKind (lutKind e) = some .text) (hlength : bs.length = lutWidth e)
    (hvalid : bs.any invalidText = false) : slotFits e (textSlot e bs) := by
  obtain ⟨hwidth, hscale⟩ := entryLegal_text hlegal hkind
  have hslen : (textSlot e bs).slen.toNat = trimLen bs bs.length := textSlot_slen_toNat e (hlength ▸ hwidth)
  have hcut : trimLen bs bs.length ≤ bs.length := trimLen_le bs bs.length
  have hkept : (bs.take (trimLen bs bs.length)).length = trimLen bs bs.length := List.length_take_of_le hcut
  have hsbytes : (textSlot e bs).sbytes =
      bs.take (trimLen bs bs.length) ++ List.replicate (sbytesLen - trimLen bs bs.length) 0 := rfl
  refine ⟨rfl, hscale.symm, ?_, fun b hb => ?_, fun _ => ⟨rfl, ?_, fun b hb => ?_, fun t ht => ?_⟩,
    fun hnumeric => absurd hkind hnumeric⟩
  · rw [hsbytes, List.length_append, hkept, List.length_replicate]
    unfold sbytesLen
    omega
  · rw [hsbytes, hslen, List.drop_left' hkept] at hb
    exact (List.mem_replicate.1 hb).2
  · rw [hslen, ← hlength]
    exact hcut
  · rw [hsbytes, hslen, List.take_left' hkept] at hb
    exact Bool.eq_false_iff.2 (List.any_eq_false.1 hvalid b (List.mem_of_mem_take hb))
  · rw [hslen] at ht
    have hlast : t < (bs.take (trimLen bs bs.length)).length := by omega
    rw [hsbytes, List.getD_append _ _ _ _ hlast, List.getD_eq_getElem _ _ hlast, List.getElem_take,
      ← List.getD_eq_getElem _ 0]
    exact getD_notMem_trimSet_of_trimLen_eq ht

/-- R81's rows of the numeric kinds: the entry's width is the number of bytes its integer is read from. -/
theorem entryLegal_numeric_width {e : LutWord} (hlegal : entryLegal e = true) :
    (fieldKind (lutKind e) = some .uint8 → lutWidth e = 1) ∧
    (fieldKind (lutKind e) = some .uint16be ∨ fieldKind (lutKind e) = some .fixed16 → lutWidth e = 2) ∧
    (fieldKind (lutKind e) = some .uint32be ∨ fieldKind (lutKind e) = some .fixed32 → lutWidth e = 4) := by
  unfold entryLegal at hlegal
  refine ⟨fun hkind => ?_, fun hkind => ?_, fun hkind => ?_⟩
  · simp only [hkind, Bool.and_eq_true, beq_iff_eq] at hlegal
    exact hlegal.1
  · rcases hkind with hkind | hkind <;>
      (simp only [hkind, Bool.and_eq_true, beq_iff_eq] at hlegal
       exact hlegal.1)
  · rcases hkind with hkind | hkind <;>
      (simp only [hkind, Bool.and_eq_true, beq_iff_eq] at hlegal
       exact hlegal.1)

/-- The slot made of a legal entry's bytes fits the entry. -/
theorem slotFits_of_fieldSlot {e : LutWord} {bs : List Byte} {r : Slot} (hlegal : entryLegal e = true)
    (hlength : bs.length = lutWidth e) (h : fieldSlot e bs = .ok r) : slotFits e r := by
  obtain ⟨hwidth1, hwidth2, hwidth4⟩ := entryLegal_numeric_width hlegal
  unfold fieldSlot at h
  split at h
  · next hkind =>
    cases h
    exact slotFits_numericSlot (by simp [hkind]) (hwidth1 hkind ▸ byteAt_lt bs 0)
  · next hkind =>
    cases h
    exact slotFits_numericSlot (by simp [hkind]) (hwidth2 (.inl hkind) ▸ be16_lt bs 0)
  · next hkind =>
    cases h
    exact slotFits_numericSlot (by simp [hkind]) (hwidth4 (.inl hkind) ▸ be32_lt bs 0)
  · next hkind =>
    cases h
    exact slotFits_numericSlot (by simp [hkind]) (hwidth2 (.inr hkind) ▸ be16_lt bs 0)
  · next hkind =>
    cases h
    exact slotFits_numericSlot (by simp [hkind]) (hwidth4 (.inr hkind) ▸ be32_lt bs 0)
  · next hkind =>
    split at h
    · cases h
    · next hvalid =>
      cases h
      exact slotFits_textSlot hlegal hkind hlength (Bool.eq_false_iff.2 hvalid)
  · cases h

/-- A successful field loop makes one fitting slot for each entry, in order (R146). -/
theorem decodeFields_forall₂_slotFits {m : Memory} {len cur k : Nat} {es : List LutWord} {rs : List Slot}
    (h : decodeFields m len cur k es = .ok rs) : List.Forall₂ slotFits es rs := by
  induction es generalizing cur k rs with
  | nil => cases h; exact .nil
  | cons e es ih =>
    obtain ⟨r, rest, rfl, hfield, hrest⟩ := decodeFields_cons_ok h
    obtain ⟨_, hlegal, bs, hbs, hslot⟩ := decodeField_ok hfield
    exact .cons (slotFits_of_fieldSlot hlegal ((Memory.readSeq_ok_iff _ _ _ _).1 hbs).1 hslot) (ih hrest)

/-! ## The reading -/

theorem resultInv_of_not_valid {s : State} (h : s.status.valid = false) : ResultInv s := fun hvalid => by
  rw [h] at hvalid
  cases hvalid

/-- An operation but `DECODE` keeps the catalog, the slots and VALID; `DECODE` clears VALID or writes every slot. -/
theorem exec_keeps_resultInv {i : Instr} {s t : State} (h : exec i s = .next t) (hs : ResultInv s) : ResultInv t := by
  cases i with
  | crcInit => cases h; exact hs
  | crcFeed b => cases h; exact hs
  | crcCompute n => rcases execCrcCompute_next h with ⟨_, rfl⟩ | ⟨_, _, _, rfl⟩ <;> exact hs
  | buildQuery addr cmd sub n => rcases execBuildQuery_next h with ⟨_, rfl⟩ | ⟨_, _, _, rfl⟩ <;> exact hs
  | decode n =>
    rcases execDecode_next h with ⟨_, rfl⟩ | ⟨_, rfl⟩ | ⟨_, _, _, rfl⟩ | ⟨rs, hrs, _, _, rfl⟩
    · exact resultInv_of_not_valid rfl
    · exact resultInv_of_not_valid rfl
    · exact resultInv_of_not_valid rfl
    · exact fun _ => decodeFields_forall₂_slotFits hrs

theorem hostMove_keeps_resultInv {m : HostMove} {s t : State} : hostMove m s = .next t → ResultInv s → ResultInv t :=
  hostMove_keeps (fun _ _ hs => hs) (fun _ _ _ _ hs => hs) (fun _ _ => resultInv_of_not_valid rfl) (fun _ hs => hs)
    (fun _ _ _ => exec_keeps_resultInv)

/-- Settles O55, from the moves: a reading appears whole or not at all. -/
theorem stepKeepsReading : Obligations.StepKeepsReading := fun _ _ =>
  step_keeps (fun _ _ hs => hs) hostMove_keeps_resultInv

/-! ## All invariants together -/

theorem configInv_of_hostMove {m : HostMove} {s t : State} (h : hostMove m s = .next t) (hs : ConfigInv s) :
    ConfigInv t := by
  unfold ConfigInv
  rw [hostMove_keeps_config h]
  exact hs

/-- Every move keeps all invariants. -/
theorem hostMove_keeps_inv {m : HostMove} {s t : State} (h : hostMove m s = .next t) (hs : s.Inv) : t.Inv := by
  obtain ⟨hconfig, hmemory, hstatus, hobuf, hresult⟩ := hs
  exact ⟨configInv_of_hostMove h hconfig, hostMove_keeps_memoryInv h hmemory, hostMove_keeps_statusInv h hstatus,
    hostMove_keeps_obufInv h hobuf, hostMove_keeps_resultInv h hresult⟩

/-- The catalog at reset is well-formed: the open one where it passes the checks, and the example elsewhere (log entry 3). -/
theorem shipped_wf : Config.shipped.wf = true := by
  unfold Config.shipped
  split
  · next hopen => exact hopen
  · decide

/-- Settles O56: nothing is written, and neither a frame nor a reading is there. -/
theorem resetMeetsInvariants : Obligations.ResetMeetsInvariants :=
  ⟨shipped_wf, memoryInv_resetCore State.reset, statusInv_resetCore State.reset, .inl rfl, resultInv_of_not_valid rfl⟩

/-! ## Progress -/

/-- `CRC_COMPUTE` and `BUILD_QUERY` do not stop where their operand is written (R37). -/
theorem readOperand_ne_error_of_written {s : State} {n : Word16} (hwritten : s.writtenRange 0 n.toNat) (i : Nat) :
    readOperand s n ≠ .error i := fun h => by
  obtain ⟨_, hi, hnone, _⟩ := (Memory.readSeq_error_iff _ _ _ _).1 h
  have hsome := hwritten i (Nat.zero_le i) (by omega)
  rw [hnone] at hsome
  cases hsome

/-- An operation whose operand bytes are written ends in no fault (R213 step 3). -/
theorem exec_ne_fault_of_operandsWritten {i : Instr} {s : State} (hwritten : operandsWritten i s) (f : Fault) :
    exec i s ≠ .fault f := fun h => by
  cases i with
  | crcInit => cases h
  | crcFeed b => cases h
  | crcCompute n =>
    obtain ⟨a, _, ha⟩ := execCrcCompute_fault h
    have hn : n.toNat ≤ s.config.ibufSize := Nat.le_of_not_lt fun hlt => by
      rw [exec, execCrcCompute_of_ibufSize_lt hlt] at h
      cases h
    exact readOperand_ne_error_of_written (hwritten hn) a ha
  | buildQuery addr cmd sub n =>
    obtain ⟨a, _, ha⟩ := execBuildQuery_fault h
    have hn : n.toNat ≤ maxPayload := Nat.le_of_not_lt fun hlt => by
      rw [exec, execBuildQuery_of_maxPayload_lt hlt] at h
      cases h
    exact readOperand_ne_error_of_written (hwritten hn) a ha
  | decode n =>
    obtain ⟨a, _, ha⟩ := execDecode_fault h
    have hn : n.toNat ≤ s.config.ibufSize := Nat.le_of_not_lt fun hlt => by
      rw [exec, execDecode_of_ibufSize_lt hlt] at h
      cases h
    obtain ⟨hnone, hheader, hspan, hlen⟩ := decodeFields_unwritten ha
    have hsome := hwritten hn a hheader (lt_min hlen hspan)
    rw [hnone] at hsome
    cases hsome

/-- With its operand bytes written and a well-formed configuration an operation answers a next state. -/
theorem exec_answers {i : Instr} {s : State} (hwf : s.config.wf = true) (hwritten : operandsWritten i s) :
    ∃ t, exec i s = .next t := by
  cases h : exec i s with
  | next t => exact ⟨t, rfl⟩
  | fault f => exact absurd h (exec_ne_fault_of_operandsWritten hwritten f)
  | refused r => exact absurd h (exec_ne_refused hwf i r)

theorem hostIssue_answers {w : CmdWord} {s : State} (hwf : s.config.wf = true) (hready : moveReady (.issue w) s) :
    ∃ t, hostIssue w s = .next t := by
  cases hdecode : decodeCmd w with
  | ok i =>
    rw [hostIssue_of_decodeCmd hdecode]
    simp only [moveReady, hdecode] at hready
    exact exec_answers hwf hready
  | error e =>
    exact ⟨_, hostIssue_of_illegalWord ((illegalWord_iff_decodeCmd_error w).2 ⟨e, hdecode⟩) s⟩

theorem exists_readReg_of_lt {n : Nat} (hn : n < 5) (s : State) : ∃ v, readReg s n = some v := by
  interval_cases n <;> exact ⟨_, rfl⟩

/-- A register below 5 is returned where STATUS is legal (R36). -/
theorem hostReadReg_answers {n : Nat} {s : State} (hstatus : StatusInv s) (hn : n < 5) :
    ∃ t, hostReadReg n s = .next t := by
  obtain ⟨⟨e, _, he⟩, _⟩ := hstatus
  obtain ⟨v, hv⟩ := exists_readReg_of_lt hn s
  have hcode : errOfCode s.status.err ≠ none := by simp [he]
  exact ⟨_, hostReadReg_returns hv fun _ => hcode⟩

/-- Every move the host may make, with its operand bytes written, answers a next state. -/
theorem hostMove_answers {m : HostMove} {s : State} (hs : s.Inv) (hallowed : moveAllowed m s = true)
    (hready : moveReady m s) : ∃ t, hostMove m s = .next t := by
  obtain ⟨hconfig, _, hstatus, hobuf, hresult⟩ := hs
  cases m with
  | issue w => exact hostIssue_answers hconfig hready
  | readReg n => exact hostReadReg_answers hstatus (of_decide_eq_true hallowed)
  | writeIbuf i b => exact ⟨_, if_pos (of_decide_eq_true hallowed)⟩
  | readObuf i =>
    have hi : i < s.olen.toNat := of_decide_eq_true hallowed
    obtain ⟨b, hb⟩ := hobuf.exists_byte hi
    exact ⟨_, hostReadObuf_returns hi hb⟩
  | readResult k =>
    obtain ⟨hdecide, hvalid⟩ := Bool.and_eq_true_iff.1 hallowed
    have hk : k < s.config.nFields := of_decide_eq_true hdecide
    obtain ⟨r, hr⟩ := hresult.exists_slot hvalid hk
    exact ⟨_, hostReadResult_returns hk hvalid hr⟩
  | reset => exact ⟨_, rfl⟩

/-- Settles O57: the move is answered, and every move keeps the invariants. -/
theorem dutifulHostNeverStops : Obligations.DutifulHostNeverStops := fun m s hs hallowed hready => by
  obtain ⟨t, ht⟩ := hostMove_answers hs hallowed hready
  exact ⟨t, ht, hostMove_keeps_inv ht hs⟩

end Sys2Proof.Machine
end

section
/-! Proofs about the CRC-16 generator and its operations (spec/40_crc.md R101 to R108): the feedback step is linear, which
gives the bit-serial form, the linearity of the CRC and its residue. -/

namespace Sys2Proof.Machine

/-! ## The feedback step is linear -/

theorem crcStep_xor (c d : Word16) : crcStep (c ^^^ d) = crcStep c ^^^ crcStep d := by
  refine BitVec.eq_of_getLsbD_eq fun i _ => ?_
  simp only [BitVec.getLsbD_xor, crcStep_getLsbD]
  cases c.getLsbD 0 <;> cases d.getLsbD 0 <;> simp [Bool.xor_comm, Bool.xor_left_comm]

theorem crcSteps_xor (n : Nat) (c d : Word16) : crcSteps n (c ^^^ d) = crcSteps n c ^^^ crcSteps n d := by
  induction n generalizing c d with
  | zero => rfl
  | succ n ih => rw [crcSteps_succ, crcSteps_succ, crcSteps_succ, crcStep_xor, ih]

/-- While stage 0 holds a 0 a step only shifts (R100). -/
theorem crcStep_of_getLsbD_zero {c : Word16} (h : c.getLsbD 0 = false) : crcStep c = c >>> 1 :=
  if_neg (by simpa using h)

/-- As many steps as there are zeros at the low end only shift. -/
theorem crcSteps_of_low_zeros {n : Nat} {c : Word16} (h : ∀ i, i < n → c.getLsbD i = false) :
    crcSteps n c = c >>> n := by
  induction n generalizing c with
  | zero => simp
  | succ n ih =>
    rw [crcSteps_succ, crcStep_of_getLsbD_zero (h 0 (Nat.succ_pos n)), ih, ← BitVec.shiftRight_add, Nat.add_comm]
    intro i hi
    rw [BitVec.getLsbD_ushiftRight]
    exact h (1 + i) (by omega)

theorem crcSteps_zero_word (n : Nat) : crcSteps n 0#16 = 0#16 :=
  (crcSteps_of_low_zeros fun _ _ => BitVec.getLsbD_zero).trans (BitVec.zero_ushiftRight)

theorem crcByte_xor (c d : Word16) (a b : Byte) : crcByte (c ^^^ d) (a ^^^ b) = crcByte c a ^^^ crcByte d b := by
  unfold crcByte
  rw [← crcSteps_xor, BitVec.setWidth_xor]
  congr 1
  ac_rfl

/-! ## The bit-serial form -/

/-- Bit `i` of the octet as a 16-bit value. -/
def serialBit (b : Byte) (i : Nat) : Word16 := (BitVec.ofBool (b.getLsbD i)).setWidth 16

/-- The register after the first `n` bits of the octet entered one at a time. -/
def crcSerialBits (b : Byte) (n : Nat) (c : Word16) : Word16 :=
  (List.range n).foldl (fun c i => crcStep (c ^^^ serialBit b i)) c

theorem crcByteSerial_eq_crcSerialBits (c : Word16) (b : Byte) : crcByteSerial c b = crcSerialBits b 8 c := rfl

theorem crcSerialBits_succ (b : Byte) (n : Nat) (c : Word16) :
    crcSerialBits b (n + 1) c = crcStep (crcSerialBits b n c ^^^ serialBit b n) := by
  simp [crcSerialBits, List.range_succ]

theorem getLsbD_octet (b : Byte) (i : Nat) : (b.setWidth 16).getLsbD i = b.getLsbD i := by
  rw [BitVec.getLsbD_setWidth]
  by_cases hi : i < 16
  · simp [hi]
  · simp [hi, BitVec.getLsbD_of_ge b i (by omega)]

theorem getLsbD_serialBit_zero (b : Byte) (n : Nat) : (serialBit b n).getLsbD 0 = b.getLsbD n := by
  simp [serialBit]

theorem getLsbD_serialBit_succ (b : Byte) (n i : Nat) : (serialBit b n).getLsbD (i + 1) = false := by
  simp [serialBit]

/-- When `n` bits of an octet have entered, bit `n` is the one in stage 0, and the others move down by one. -/
theorem crcStep_remaining (b : Byte) (n : Nat) :
    crcStep (b.setWidth 16 >>> n) = crcStep (serialBit b n) ^^^ (b.setWidth 16 >>> (n + 1)) := by
  refine BitVec.eq_of_getLsbD_eq fun i _ => ?_
  have hindex : n + (i + 1) = n + 1 + i := by omega
  simp only [BitVec.getLsbD_xor, crcStep_getLsbD, BitVec.getLsbD_ushiftRight, getLsbD_octet, getLsbD_serialBit_zero,
    getLsbD_serialBit_succ, Nat.add_zero, Bool.false_xor, hindex]
  exact Bool.xor_comm _ _

/-- Entering the bits one at a time and entering the whole octet differ by the bits still to enter. -/
theorem crcSteps_octet (b : Byte) (n : Nat) (c : Word16) :
    crcSteps n (c ^^^ b.setWidth 16) = crcSerialBits b n c ^^^ (b.setWidth 16 >>> n) := by
  induction n with
  | zero => simp [crcSerialBits]
  | succ n ih =>
    rw [crcSteps_add n 1, ih, crcSteps_succ, crcSteps_zero, crcStep_xor, crcStep_remaining, crcSerialBits_succ,
      crcStep_xor, BitVec.xor_assoc]

/-- Settles O11: after eight bits none is left to enter. -/
theorem crcByteSerialAgrees : Obligations.CrcByteSerialAgrees := fun c b => by
  have hnone : b.setWidth 16 >>> 8 = 0#16 := by
    refine BitVec.eq_of_getLsbD_eq fun i _ => ?_
    rw [BitVec.getLsbD_ushiftRight, getLsbD_octet, BitVec.getLsbD_of_ge b (8 + i) (Nat.le_add_right 8 i),
      BitVec.getLsbD_zero]
  rw [crcByteSerial_eq_crcSerialBits, crcByte, crcSteps_octet, hnone, BitVec.xor_zero]

/-! ## Laws of the CRC of a sequence -/

/-- The registers of two runs over sequences of equal length, XORed, are the register of the run over their XOR. -/
theorem foldl_crcByte_xor {s t : List Byte} (h : s.length = t.length) (c d : Word16) :
    (List.zipWith (· ^^^ ·) s t).foldl crcByte (c ^^^ d) = s.foldl crcByte c ^^^ t.foldl crcByte d := by
  induction s generalizing t c d with
  | nil =>
    obtain rfl : t = [] := List.length_eq_zero_iff.1 h.symm
    rfl
  | cons a s ih =>
    cases t with
    | nil => cases h
    | cons b t =>
      rw [List.zipWith_cons_cons, List.foldl_cons, List.foldl_cons, List.foldl_cons, crcByte_xor,
        ih (Nat.succ.inj h)]

/-- Settles O12: both runs start at 0. -/
theorem crcLinear : Obligations.CrcLinear := fun _ _ h => foldl_crcByte_xor h 0 0

theorem getLsbD_lo8 (c : Word16) (i : Nat) : (lo8 c).getLsbD i = (decide (i < 8) && c.getLsbD i) := by
  simp [lo8]

theorem getLsbD_hi8 (c : Word16) (i : Nat) : (hi8 c).getLsbD i = c.getLsbD (8 + i) := by
  rw [hi8, BitVec.getLsbD_extractLsb']
  by_cases hi : i < 8
  · simp [hi]
  · simp [hi, BitVec.getLsbD_of_ge c (8 + i) (by omega)]

/-- A byte equal to the low half of CRC leaves the high half, shifted down. -/
theorem crcByte_lo8 (c : Word16) : crcByte c (lo8 c) = (hi8 c).setWidth 16 := by
  have hlow : ∀ i, i < 8 → (c ^^^ (lo8 c).setWidth 16).getLsbD i = false := fun i hi => by
    rw [BitVec.getLsbD_xor, getLsbD_octet, getLsbD_lo8, decide_eq_true hi, Bool.true_and, Bool.xor_self]
  rw [crcByte, crcSteps_of_low_zeros hlow]
  refine BitVec.eq_of_getLsbD_eq fun i _ => ?_
  have habove : ¬8 + i < 8 := by omega
  rw [BitVec.getLsbD_ushiftRight, BitVec.getLsbD_xor, getLsbD_octet, getLsbD_octet, getLsbD_lo8, getLsbD_hi8,
    decide_eq_false habove, Bool.false_and, Bool.xor_false]

/-- A byte equal to a CRC below 0x100 gives 0 (R104). -/
theorem crcByte_self (b : Byte) : crcByte (b.setWidth 16) b = 0 := by
  rw [crcByte, BitVec.xor_self]
  exact crcSteps_zero_word 8

/-- Settles O13: the low byte leaves the high one in the register, and the high one cancels it. -/
theorem crcResidue : Obligations.CrcResidue := fun s => by
  rw [crc16_append, List.foldl_cons, List.foldl_cons, List.foldl_nil, crcByte_lo8, crcByte_self]

/-- Settles O14, by computation. -/
theorem crcKnownVectors : Obligations.CrcKnownVectors := by
  unfold Obligations.CrcKnownVectors
  decide +kernel

/-! ## Operations -/

/-- Settles O17: the effect by computation, then the byte that cancels CRC and the example. -/
theorem crcFeedResult : Obligations.CrcFeedResult := ⟨fun _ _ => rfl, crcByte_self, by decide⟩

theorem readOperand_of_holds {s : State} {n : Word16} {bs : List Byte} (hlength : bs.length = n.toNat)
    (hbs : s.holds bs) : readOperand s n = .ok bs :=
  (readOperand_ok_iff s n bs).2 ⟨hlength, fun j hj => hbs j (hlength ▸ hj)⟩

/-- The operand's first unwritten byte is the one the read stops at. -/
theorem readOperand_of_unwritten {s : State} {n : Word16} {i : Nat} (hi : i < n.toNat) (hbefore : s.writtenRange 0 i)
    (hnone : s.ibuf.read i = none) : readOperand s n = .error i :=
  (Memory.readSeq_error_iff _ _ _ _).2 ⟨Nat.zero_le i, by omega, hnone, hbefore⟩

theorem execCrcCompute_of_ok {n : Word16} {s : State} {bs : List Byte} (hn : n.toNat ≤ s.config.ibufSize)
    (h : readOperand s n = .ok bs) : execCrcCompute n s = .next { s with crc := crc16 bs }.complete := by
  simp only [execCrcCompute, if_neg (Nat.not_lt.2 hn), h]

theorem execCrcCompute_of_error {n : Word16} {s : State} {i : Nat} (hn : n.toNat ≤ s.config.ibufSize)
    (h : readOperand s n = .error i) : execCrcCompute n s = .fault (.unwrittenRead i) := by
  simp only [execCrcCompute, if_neg (Nat.not_lt.2 hn), h]

theorem execBuildQuery_of_error {n : Word16} {s : State} {i : Nat} (hn : n.toNat ≤ maxPayload)
    (h : readOperand s n = .error i) (addr cmd sub : Byte) :
    execBuildQuery addr cmd sub n s = .fault (.unwrittenRead i) := by
  simp only [execBuildQuery, if_neg (Nat.not_lt.2 hn), h]

/-- Settles O18: the read of the operand gives the sequence `IBUF` holds. -/
theorem crcComputeCompletes : Obligations.CrcComputeCompletes := fun _ _ _ hn hlength hbs =>
  execCrcCompute_of_ok hn (readOperand_of_holds hlength hbs)

/-- Settles O19: the bound is checked before any read. -/
theorem crcComputeTooLong : Obligations.CrcComputeTooLong := fun _ _ hn => execCrcCompute_of_ibufSize_lt hn

/-- Settles O20: both operations read their operand before they do anything else. -/
theorem unwrittenOperandFaults : Obligations.UnwrittenOperandFaults := fun _ _ _ hi hbefore hnone =>
  have hread := readOperand_of_unwritten hi hbefore hnone
  ⟨fun hn => execCrcCompute_of_error hn hread, fun addr cmd sub hn => execBuildQuery_of_error hn hread addr cmd sub⟩

/-- Feeding a sequence from a completed operation leaves CRC advanced by it, and nothing else changed (R104). -/
theorem runInstrs_crcFeed (bs : List Byte) (s : State) :
    runInstrs (bs.map .crcFeed) s.complete = .next { s with crc := bs.foldl crcByte s.crc }.complete := by
  induction bs generalizing s with
  | nil => rfl
  | cons b bs ih => exact ih { s with crc := crcByte s.crc b }

theorem runInstrs_crcSeq (bs : List Byte) (s : State) :
    runInstrs (crcSeq bs) s = .next { s with crc := crc16 bs }.complete :=
  runInstrs_crcFeed bs { s with crc := crcInitValue }

/-- Settles O21: both leave the state that `CRC_COMPUTE` completes in. -/
theorem crcSeqEqualsCompute : Obligations.CrcSeqEqualsCompute := fun _ bs s hn hlength hbs =>
  ⟨{ s with crc := crc16 bs }.complete, runInstrs_crcSeq bs s, crcComputeCompletes _ bs s hn hlength hbs, rfl⟩

end Sys2Proof.Machine
end

section
/-! Proofs about the query-frame packer (spec/41_frame_packer.md): the frame's residue, and what `BUILD_QUERY` leaves. -/

namespace Sys2Proof.Machine

/-- From ENQ to CRC-high the frame is the body and its CRC, low byte first (R90). -/
theorem pack_enq_to_crc (addr cmd sub : Byte) (p : List Byte) :
    ((pack addr cmd sub p).drop 1).take (p.length + 7) = packBody addr cmd sub p ++
      [lo8 (crc16 (packBody addr cmd sub p)), hi8 (crc16 (packBody addr cmd sub p))] := by
  have hsplit : (pack addr cmd sub p).drop 1 = (packBody addr cmd sub p ++
      [lo8 (crc16 (packBody addr cmd sub p)), hi8 (crc16 (packBody addr cmd sub p))]) ++ [etx] := by
    simp [pack]
  rw [hsplit]
  exact List.take_left' (by simp [packBody_length])

/-- Settles O23: the residue of the frame's body. -/
theorem frameResidueZero : Obligations.FrameResidueZero := fun addr cmd sub p => by
  rw [pack_enq_to_crc]
  exact crcResidue _

/-- Settles O24, by computation. -/
theorem queryStatusFrame : Obligations.QueryStatusFrame := by
  unfold Obligations.QueryStatusFrame
  decide +kernel

theorem execBuildQuery_of_ok {n : Word16} {s : State} {p : List Byte} (hn : n.toNat ≤ maxPayload)
    (h : readOperand s n = .ok p) (addr cmd sub : Byte) :
    execBuildQuery addr cmd sub n s = .next { s with
      obuf := s.obuf.writeSeq 0 (pack addr cmd sub p)
      olen := BitVec.ofNat 16 (n.toNat + frameOverhead)
      crc := crc16 (packBody addr cmd sub p) }.complete := by
  simp only [execBuildQuery, if_neg (Nat.not_lt.2 hn), h]

theorem ofNat_add_frameOverhead (n : Word16) : BitVec.ofNat 16 (n.toNat + frameOverhead) = n + 9 := by
  rw [BitVec.ofNat_add, BitVec.ofNat_toNat, BitVec.setWidth_eq]
  rfl

/-- Settles O25: the frame is written from index 0, and it is `N + 9` bytes long. -/
theorem buildQueryCompletes : Obligations.BuildQueryCompletes := fun addr cmd sub n p s hn hlength hp => by
  refine ⟨s.obuf.writeSeq 0 (pack addr cmd sub p), ?_, fun a ha => ?_, fun a ha => ?_⟩
  · rw [← ofNat_add_frameOverhead]
    exact execBuildQuery_of_ok hn (readOperand_of_holds hlength hp) addr cmd sub
  · rw [read_writeSeq_zero, pack_length]
    exact if_pos ha
  · rw [read_writeSeq_zero, pack_length]
    exact if_neg (Nat.not_lt.2 ha)

/-- A 16-bit value is its low byte and 256 times its high byte (R9). -/
theorem toNat_eq_lo8_add_hi8 (c : Word16) : c.toNat = (lo8 c).toNat + 256 * (hi8 c).toNat := by
  have := c.isLt
  simp only [lo8, hi8, BitVec.extractLsb'_toNat, Nat.shiftRight_eq_div_pow]
  omega

/-- A successful `BUILD_QUERY` has packed its operand within the bound. -/
theorem execBuildQuery_success {addr cmd sub : Byte} {n : Word16} {s t : State}
    (h : execBuildQuery addr cmd sub n s = .next t) (herr : t.status.err = 0) :
    n.toNat ≤ maxPayload ∧ ∃ p, readOperand s n = .ok p ∧ t = { s with
      obuf := s.obuf.writeSeq 0 (pack addr cmd sub p)
      olen := BitVec.ofNat 16 (n.toNat + frameOverhead)
      crc := crc16 (packBody addr cmd sub p) }.complete := by
  rcases execBuildQuery_next h with ⟨_, rfl⟩ | hsuccess
  · simp at herr
  · exact hsuccess

/-- Settles O27: the trailer's two bytes are those of CRC, and no part of the answer takes the old CRC. -/
theorem buildQueryCrcInFrame : Obligations.BuildQueryCrcInFrame := fun addr cmd sub n s t h herr => by
  obtain ⟨hn, p, hp, rfl⟩ := execBuildQuery_success h herr
  have hlength : p.length = n.toNat := readOperand_length hp
  have hframe (k : Nat) (hk : k < 3) : (s.obuf.writeSeq 0 (pack addr cmd sub p)).read (6 + k + n.toNat) =
      [lo8 (crc16 (packBody addr cmd sub p)), hi8 (crc16 (packBody addr cmd sub p)), etx][k]? := by
    have hinside : 6 + k + p.length < (pack addr cmd sub p).length := by
      rw [pack_length, frameOverhead]
      omega
    rw [← hlength, read_writeSeq_zero, if_pos hinside, pack_getElem?_trailer]
  exact ⟨⟨_, _, hframe 0 (by decide), hframe 1 (by decide), toNat_eq_lo8_add_hi8 _⟩,
    fun c => execBuildQuery_of_ok (s := { s with crc := c }) hn hp addr cmd sub⟩

end Sys2Proof.Machine
end

section
/-! Proofs about the response decoder (spec/42_decoder.md): the catalog's offsets (R142), when `DECODE` completes and what it
depends on (R140, R146, R157), and what a slot holds (R147 to R150). -/

namespace Sys2Proof.Machine

/-! ## The offsets of the fields -/

theorem lutSpan_append (l l' : List LutWord) : lutSpan (l ++ l') = lutSpan l + lutSpan l' := by
  simp [lutSpan]

theorem fieldOffset_succ {lut : List LutWord} {k : Nat} {e : LutWord} (he : lut[k]? = some e) :
    fieldOffset lut (k + 1) = fieldOffset lut k + lutWidth e := by
  unfold fieldOffset
  rw [List.take_add_one, he, lutSpan_append, Option.toList_some, lutSpan_cons, lutSpan_nil, Nat.add_zero, Nat.add_assoc]

/-- Settles O37: the offset is the header and the span of the entries before, so each entry adds its width. -/
theorem fieldsTile : Obligations.FieldsTile := fun lut =>
  ⟨rfl, by rw [fieldOffset, List.take_length, respHeader], fun _ _ he => fieldOffset_succ he⟩

/-! ## When `DECODE` completes -/

/-- Each slot of a successful loop is its own entry's, at that entry's offset. -/
theorem decodeFields_getElem? {m : Memory} {len cur k i : Nat} {es : List LutWord} {rs : List Slot} {e : LutWord}
    (h : decodeFields m len cur k es = .ok rs) (he : es[i]? = some e) :
    ∃ r, rs[i]? = some r ∧ decodeField m len (cur + lutSpan (es.take i)) (k + i) e = .ok r := by
  induction es generalizing cur k i rs with
  | nil => cases he
  | cons d es ih =>
    obtain ⟨r, rest, rfl, hfirst, hrest⟩ := decodeFields_cons_ok h
    cases i with
    | zero =>
      cases he
      exact ⟨r, rfl, hfirst⟩
    | succ i =>
      obtain ⟨r', hr', hfield⟩ := ih hrest he
      refine ⟨r', hr', ?_⟩
      rw [List.take_succ_cons, lutSpan_cons, ← Nat.add_assoc, Nat.add_comm i, ← Nat.add_assoc]
      exact hfield

/-- Where every field passes the loop makes a slot for each (R140). -/
theorem decodeFields_of_fieldGood {s : State} {len : Nat} (hwf : s.config.wf = true)
    (hgood : ∀ k e, s.config.lut[k]? = some e → fieldGood s len k e) :
    ∃ rs, decodeFields s.ibuf len respHeader 0 s.config.lut = .ok rs := by
  cases hloop : decodeFields s.ibuf len respHeader 0 s.config.lut with
  | ok rs => exact ⟨rs, rfl⟩
  | error stop =>
    obtain ⟨i, e, he, hstop, _⟩ := decodeFields_error hloop
    obtain ⟨r, hr⟩ := decodeField_ok_iff_fieldGood.2 ⟨entryLegal_of_wf hwf he, hgood i e he⟩
    rw [Nat.zero_add] at hstop
    exact absurd (hr.symm.trans hstop) (by simp)

/-- A response with every field in it is longer than the least length: a catalog has a first field, after the header. -/
theorem respMinLen_le_of_fieldGood {s : State} {len : Nat} (hwf : s.config.wf = true)
    (hgood : ∀ k e, s.config.lut[k]? = some e → fieldGood s len k e) : respMinLen ≤ len := by
  have hcount : 1 ≤ s.config.nFields := by
    simp only [Config.wf, checkCount, Bool.and_eq_true, decide_eq_true_eq] at hwf
    tauto
  have hfirst : 0 < s.config.lut.length := by
    rw [Config.lut, List.length_map]
    exact hcount
  obtain ⟨hspan, _⟩ := hgood 0 _ (List.getElem?_eq_getElem hfirst)
  have hoffset : fieldOffset s.config.lut 0 = 6 := (fieldsTile _).1
  unfold respMinLen
  omega

theorem execDecode_of_ok {n : Word16} {s : State} {rs : List Slot} (hn : n.toNat ≤ s.config.ibufSize)
    (hmin : respMinLen ≤ n.toNat) (hloop : decodeFields s.ibuf n.toNat respHeader 0 s.config.lut = .ok rs) :
    execDecode n s = .next ({ s with result := rs }.setValid true).complete := by
  simp only [execDecode, if_neg (Nat.not_lt.2 hn), if_neg (Nat.not_lt.2 hmin), hloop]

/-- Settles O28: every field passes, so the loop succeeds, and each slot is that of its own field's bytes. -/
theorem decodeCompletes : Obligations.DecodeCompletes := fun n s hwf hn hgood => by
  obtain ⟨rs, hrs⟩ := decodeFields_of_fieldGood hwf hgood
  refine ⟨rs, execDecode_of_ok hn (respMinLen_le_of_fieldGood hwf hgood) hrs, ?_, fun k e bs he hbs => ?_⟩
  · rw [decodeFields_length hrs, Config.lut, List.length_map]
    rfl
  · obtain ⟨r, hr, hfield⟩ := decodeFields_getElem? hrs he
    obtain ⟨_, _, bs', hbs', hslot⟩ := decodeField_ok hfield
    obtain rfl : bs' = bs := Except.ok.inj (hbs'.symm.trans hbs)
    exact ⟨r, hr, hslot⟩

/-! ## Where `DECODE` meets an unwritten byte -/

/-- With every field before `k` passing, the loop stops where field `k` does (R145). -/
theorem decodeFields_of_fieldsGoodBefore {s : State} {len k : Nat} {e : LutWord} {stop : DecodeStop}
    (hwf : s.config.wf = true) (he : s.config.lut[k]? = some e) (hbefore : fieldsGoodBefore s len k)
    (hstop : decodeField s.ibuf len (fieldOffset s.config.lut k) k e = .error stop) :
    decodeFields s.ibuf len respHeader 0 s.config.lut = .error stop := by
  refine decodeFields_of_first_error he ?_ fun j d hj hd => ?_
  · rw [Nat.zero_add]
    exact hstop
  · rw [Nat.zero_add]
    exact decodeField_ok_iff_fieldGood.2 ⟨entryLegal_of_wf hwf hd, hbefore j d hj hd⟩

theorem decodeField_of_unwritten {m : Memory} {len cur k i : Nat} {e : LutWord} (hspan : cur + lutWidth e ≤ len)
    (hlegal : entryLegal e = true) (hread : m.readSeq cur (lutWidth e) = .error i) :
    decodeField m len cur k e = .error (.unwritten i) := by
  simp only [decodeField, if_neg (Nat.not_lt.2 hspan), if_pos hlegal, hread]

theorem execDecode_of_unwritten {n : Word16} {s : State} {i : Nat} (hn : n.toNat ≤ s.config.ibufSize)
    (hmin : respMinLen ≤ n.toNat)
    (hloop : decodeFields s.ibuf n.toNat respHeader 0 s.config.lut = .error (.unwritten i)) :
    execDecode n s = .fault (.unwrittenRead i) := by
  simp only [execDecode, if_neg (Nat.not_lt.2 hn), if_neg (Nat.not_lt.2 hmin), hloop]

/-- Settles O30: field `k`'s read stops at its first unwritten byte. -/
theorem decodeUnwrittenFaults : Obligations.DecodeUnwrittenFaults :=
  fun n s k i e hwf hn hmin he hbefore hspan hi hie hwritten hnone => by
    have hread : s.ibuf.readSeq (fieldOffset s.config.lut k) (lutWidth e) = .error i :=
      (Memory.readSeq_error_iff _ _ _ _).2 ⟨hi, hie, hnone, hwritten⟩
    have hfield := decodeField_of_unwritten (k := k) hspan (entryLegal_of_wf hwf he) hread
    exact execDecode_of_unwritten hn hmin (decodeFields_of_fieldsGoodBefore hwf he hbefore hfield)

/-! ## What `DECODE` depends on -/

/-- `DECODE` of a state with the same configuration and `IBUF` answers the same, with the same STATUS, and the same slots
while VALID is 1 (R157). -/
theorem execDecode_congr {s s' : State} (hconfig : s.config = s'.config) (hibuf : s.ibuf = s'.ibuf) (n : Word16) :
    execDecode n s' = mapNext (fun t =>
      { s' with status := t.status, result := if t.status.valid then t.result else s'.result }) (execDecode n s) := by
  unfold execDecode
  rw [hconfig, hibuf]
  split
  · rfl
  split
  · rfl
  cases decodeFields s'.ibuf n.toNat respHeader 0 s'.config.lut with
  | ok rs => rfl
  | error stop => cases stop <;> rfl

/-- Settles O32: the two answers differ only in what `DECODE` leaves alone. -/
theorem decodeIndependent : Obligations.DecodeIndependent := fun n s s' hconfig hibuf => by
  have hsame := execDecode_congr hconfig hibuf n
  refine ⟨fun t ht => ?_, fun f hf => ?_⟩
  · have hdecode : execDecode n s = .next t := ht
    rw [hdecode] at hsame
    exact ⟨_, hsame, rfl, fun hvalid => if_pos hvalid⟩
  · have hdecode : execDecode n s = .fault f := hf
    rw [hdecode] at hsame
    exact hsame

/-- A successful `DECODE` has made a slot for each catalog entry. -/
theorem execDecode_success {n : Word16} {s t : State} (h : execDecode n s = .next t) (herr : t.status.err = 0) :
    ∃ rs, decodeFields s.ibuf n.toNat respHeader 0 s.config.lut = .ok rs ∧
      t = ({ s with result := rs }.setValid true).complete := by
  rcases execDecode_next h with ⟨_, rfl⟩ | ⟨_, rfl⟩ | ⟨e, k, hstop, rfl⟩ | ⟨rs, hrs, _, _, ht⟩
  · simp at herr
  · simp at herr
  · obtain ⟨rfl | rfl, _⟩ := decodeFields_raised hstop <;> simp at herr
  · exact ⟨rs, hrs, ht⟩

/-- Settles O33: the slots are as many as the entries, so pairing them drops no name. -/
theorem readingIsComplete : Obligations.ReadingIsComplete := fun n s t h herr => by
  obtain ⟨rs, hrs, rfl⟩ := execDecode_success h herr
  have hlength : s.config.catalog.length = rs.length := by
    rw [decodeFields_length hrs, Config.lut, List.length_map]
  refine ⟨_, if_pos rfl, ?_⟩
  calc ((s.config.catalog.zip rs).map fun x => (x.1.name, slotValue x.2, x.1.unit)).map (·.1)
      = ((s.config.catalog.zip rs).map Prod.fst).map (·.name) := by
        rw [List.map_map, List.map_map]
        rfl
    _ = s.config.catalog.map (·.name) := by rw [List.map_fst_zip hlength.le]

/-! ## What a numeric slot holds -/

theorem toNat_append_eq_mul_add {v w : Nat} (x : BitVec v) (y : BitVec w) :
    (x ++ y).toNat = x.toNat * 2 ^ w + y.toNat := by
  rw [BitVec.toNat_append, Nat.shiftLeft_eq, Nat.mul_comm, Nat.two_pow_add_eq_or_of_lt y.isLt]

/-- `RAW` of one byte (R147). -/
theorem ofNat_byteAt (a : Byte) : BitVec.ofNat 32 (byteAt [a] 0) = 0#24 ++ a := by
  refine BitVec.eq_of_toNat_eq ?_
  have ha := a.isLt
  simp only [toNat_append_eq_mul_add, BitVec.toNat_ofNat, byteAt, List.getD_cons_zero]
  omega

/-- `RAW` of two bytes, the first most significant (R148, R150). -/
theorem ofNat_be16 (a b : Byte) : BitVec.ofNat 32 (be16 [a, b] 0) = 0#16 ++ a ++ b := by
  refine BitVec.eq_of_toNat_eq ?_
  have ha := a.isLt
  have hb := b.isLt
  simp only [toNat_append_eq_mul_add, BitVec.toNat_ofNat, be16, byteAt, List.getD_cons_zero, List.getD_cons_succ]
  omega

/-- `RAW` of four bytes, the first most significant (R149, R150). -/
theorem ofNat_be32 (a b c d : Byte) : BitVec.ofNat 32 (be32 [a, b, c, d] 0) = a ++ b ++ c ++ d := by
  refine BitVec.eq_of_toNat_eq ?_
  have ha := a.isLt
  have hb := b.isLt
  have hc := c.isLt
  have hd := d.isLt
  simp only [toNat_append_eq_mul_add, BitVec.toNat_ofNat, be32, byteAt, List.getD_cons_zero, List.getD_cons_succ]
  omega

/-- Settles O34, kind by kind. -/
theorem numericFieldsBigEndian : Obligations.NumericFieldsBigEndian := fun e a b c d => by
  rw [← ofNat_byteAt, ← ofNat_be16, ← ofNat_be32]
  refine ⟨fun hkind => ?_, fun hkind => ?_, fun hkind => ?_⟩
  · simp only [fieldSlot, hkind]
    rfl
  · rcases hkind with hkind | hkind <;>
      (simp only [fieldSlot, hkind]
       rfl)
  · rcases hkind with hkind | hkind <;>
      (simp only [fieldSlot, hkind]
       rfl)

theorem scaleDiv_eq_pow (scale : BitVec 2) : scaleDiv scale = 10 ^ scale.toNat := by
  revert scale
  decide

/-- Settles O36: the divisor is a power of ten, so it is not 0 and cancels. -/
theorem scaledValueExact : Obligations.ScaledValueExact := fun r hkind => by
  refine ⟨mkRat r.raw.toNat (scaleDiv r.scale), if_neg hkind, ?_⟩
  have hpow : (10 : Rat) ^ r.scale.toNat ≠ 0 := pow_ne_zero _ (by norm_num)
  rw [Rat.mkRat_eq_div, scaleDiv_eq_pow]
  push_cast
  exact div_mul_cancel₀ _ hpow

end Sys2Proof.Machine
end

section
/-! Proofs about the configuration (spec/42_decoder.md R141, spec/30_encoding.md R81, spec/00_scope.md R6): each check says what
its rule says of the entries' bits, and a configuration is loaded exactly when it passes them all. -/

namespace Sys2Proof.Machine

/-! ## The checks, each in the terms of its rule -/

/-- R81: an entry is legal exactly when its KIND, WIDTH and SCALE are a row of the table. -/
theorem entryLegal_iff_row (e : LutWord) : entryLegal e = true ↔
    ((lutKind e).toNat, lutWidth e, (lutScale e).toNat) ∈
      [(0, 1, 0), (1, 2, 0), (2, 4, 0), (3, 2, 1), (3, 2, 2), (3, 2, 3), (4, 4, 1), (4, 4, 2), (4, 4, 3),
        (5, 11, 0), (5, 18, 0)] := by
  have hkinds : ∀ k : BitVec 3, k = 0 ∨ k = 1 ∨ k = 2 ∨ k = 3 ∨ k = 4 ∨ k = 5 ∨ k = 6 ∨ k = 7 := by decide
  have hzero : ∀ sc : BitVec 2, sc = 0#2 ↔ sc.toNat = 0 := by decide
  have hnonzero : ∀ sc : BitVec 2, ¬sc.toNat = 0 ↔ sc.toNat = 1 ∨ sc.toNat = 2 ∨ sc.toNat = 3 := by decide
  unfold entryLegal
  generalize lutKind e = k
  generalize lutWidth e = w
  generalize lutScale e = sc
  rcases hkinds k with rfl | rfl | rfl | rfl | rfl | rfl | rfl | rfl <;>
    simp [fieldKind, hzero, hnonzero, and_or_left, or_and_right]

theorem checkCount_iff (c : Config) : checkCount c = true ↔ 1 ≤ c.catalog.length ∧ c.catalog.length ≤ 256 := by
  rw [checkCount, Bool.and_eq_true, decide_eq_true_iff, decide_eq_true_iff, Config.nFields]

theorem checkEntries_iff (c : Config) : checkEntries c = true ↔ ∀ e ∈ c.catalog, entryLegal e.word = true := by
  simp [checkEntries, Config.lut]

/-- R84: the categories are the codes 0 to 6. -/
theorem category_isSome_iff (k : BitVec 3) : (category k).isSome = true ↔ k.toNat ≤ 6 := by
  revert k
  decide

theorem checkCategories_iff (c : Config) : checkCategories c = true ↔
    ∀ e ∈ c.catalog, (lutCategory e.word).toNat ≤ 6 ∧ lutReserved e.word = 0 := by
  simp [checkCategories, Config.lut, category_isSome_iff]

/-- A list holds exactly one element with a property when one index alone holds such an element. -/
theorem countP_eq_one_iff {α : Type} (p : α → Bool) (l : List α) : l.countP p = 1 ↔
    ∃ k, k < l.length ∧ ∀ (j : Nat) (a : α), l[j]? = some a → (p a = true ↔ j = k) := by
  induction l with
  | nil => simp
  | cons a l ih =>
    cases ha : p a with
    | true =>
      rw [List.countP_cons_of_pos ha, Nat.add_eq_right, List.countP_eq_zero]
      constructor
      · intro hnone
        refine ⟨0, Nat.succ_pos _, fun j b hb => ?_⟩
        cases j with
        | zero => cases hb; simp [ha]
        | succ j => simp [hnone b (List.mem_of_getElem? hb)]
      · rintro ⟨k, _, honly⟩ b hb
        obtain ⟨j, hj⟩ := List.mem_iff_getElem?.1 hb
        have hfirst : 0 = k := (honly 0 a rfl).1 ha
        rw [honly (j + 1) b hj]
        omega
    | false =>
      rw [List.countP_cons_of_neg (by simp [ha]), ih]
      constructor
      · rintro ⟨k, hk, honly⟩
        refine ⟨k + 1, Nat.succ_lt_succ hk, fun j b hb => ?_⟩
        cases j with
        | zero => cases hb; simp [ha]
        | succ j => rw [honly j b hb, Nat.add_right_cancel_iff]
      · rintro ⟨k, hk, honly⟩
        cases k with
        | zero => exact absurd ((honly 0 a rfl).2 rfl) (by simp [ha])
        | succ k =>
          refine ⟨k, Nat.lt_of_succ_lt_succ hk, fun j b hb => ?_⟩
          rw [honly (j + 1) b hb, Nat.add_right_cancel_iff]

theorem checkPrimary_iff (c : Config) : checkPrimary c = true ↔
    ∃ k, k < c.catalog.length ∧ ∀ (j : Nat) (e : CatalogEntry), c.catalog[j]? = some e →
      (lutPrimary e.word = true ↔ j = k) := by
  rw [← countP_eq_one_iff fun e : CatalogEntry => lutPrimary e.word]
  simp [checkPrimary, Config.lut, List.countP_map, Function.comp_def]

theorem checkSpan_iff (c : Config) : checkSpan c = true ↔
    6 + (c.catalog.map fun e => lutWidth e.word).sum ≤ c.ibufSize := by
  simp [checkSpan, lutSpan, Config.lut, respHeader, Function.comp_def]

theorem checkNames_iff (c : Config) : checkNames c = true ↔
    ∀ (i j : Nat) (d e : CatalogEntry), i < j → c.catalog[i]? = some d → c.catalog[j]? = some e → d.name ≠ e.name := by
  rw [checkNames, decide_eq_true_iff, List.Nodup, List.pairwise_map, List.pairwise_iff_getElem]
  constructor
  · intro h i j d e hij hd he
    obtain ⟨hi, rfl⟩ := List.getElem?_eq_some_iff.1 hd
    obtain ⟨hj, rfl⟩ := List.getElem?_eq_some_iff.1 he
    exact h i j hi hj hij
  · intro h i j hi hj hij
    exact h i j _ _ hij (List.getElem?_eq_getElem hi) (List.getElem?_eq_getElem hj)

theorem checkIbufSize_iff (c : Config) : checkIbufSize c = true ↔ 258 ≤ c.ibufSize ∧ c.ibufSize < 65536 := by
  rw [checkIbufSize, Bool.and_eq_true, decide_eq_true_iff, decide_eq_true_iff]
  exact Iff.rfl

/-! ## Loading a configuration -/

theorem configure_of_wf {c : Config} (h : c.wf = true) : configure c = .next (State.afterReset c) := if_pos h

theorem configure_of_not_wf {c : Config} (h : c.wf = false) : configure c = .refused .illFormedCatalog :=
  if_neg (by simp [h])

/-- Settles O58, check by check. -/
theorem configureRefusesIllFormed : Obligations.ConfigureRefusesIllFormed := fun c => by
  refine ⟨?_, configure_of_wf, configure_of_not_wf⟩
  simp only [Config.wf, Bool.and_eq_true, checkCount_iff, checkEntries_iff, checkCategories_iff, checkPrimary_iff,
    checkSpan_iff, checkNames_iff, checkIbufSize_iff, entryLegal_iff_row, and_assoc]
  exact Iff.rfl

end Sys2Proof.Machine
end
